-- ==== Sys2Proof/Word.lean ====
section
/-!
DEFINITION. The word types of the core (00_scope.md R6, R12): 8-bit registers and memory cells, 16-bit
addresses. Byte-order helpers stand in Decode.lean, memory in Machine/.
-/
namespace Sys2Proof

/-- A register `A`, `X`, `Y`, `P` or a memory cell: 8 bits, unsigned (R12). -/
abbrev Byte := BitVec 8

/-- An address or the program counter: 16 bits, unsigned (R12). -/
abbrev Addr := BitVec 16

end Sys2Proof
end

