-- ==== Sys2Proof/Syntax.lean ====
section
/-!
DEFINITION. The instructions as data: mnemonics (R3), addressing-mode tags (R88), the decoder's descriptor (R61),
an addressing mode with its operand bytes, and one constructor of `Instr` for each row of the opcode table (R64).
-/
namespace Sys2Proof

/-- The five handlers (R3, R84); conflict C10: an enumerated selector, not a text. -/
inductive Mnemonic where
  | lda
  | sta
  | tax
  | inx
  | brk
  deriving DecidableEq, Repr

/-- The addressing-mode tag: exactly ten values (R88). -/
inductive Mode where
  | immediate
  | zeroPage
  | zeroPageX
  | zeroPageY
  | absolute
  | absoluteX
  | absoluteY
  | indirectX
  | indirectY
  | noneAddressing
  deriving DecidableEq, Repr

/-- What the opcode table gives for one opcode byte: mnemonic, addressing mode, total length (R61). -/
structure Descriptor where
  mnemonic : Mnemonic
  mode     : Mode
  length   : Nat
  deriving DecidableEq, Repr

/-- A mode tag together with the operand bytes it takes: `b1` in format B, the word of `lo` and `hi` in
format W, nothing in format I (R60, R62). -/
inductive Operand where
  | immediate (b1 : Byte)
  | zeroPage  (b1 : Byte)
  | zeroPageX (b1 : Byte)
  | zeroPageY (b1 : Byte)
  | absolute  (w : Addr)
  | absoluteX (w : Addr)
  | absoluteY (w : Addr)
  | indirectX (b1 : Byte)
  | indirectY (b1 : Byte)
  | noneAddressing
  deriving DecidableEq, Repr

/-- One constructor per row of the opcode table (R64), with the row's operand bytes. -/
inductive Instr where
  /-- `LDA #$nn`, A9 (R111) -/
  | ldaImmediate (b1 : Byte)
  /-- `LDA $nn`, A5 (R112) -/
  | ldaZeroPage (b1 : Byte)
  /-- `LDA $nn,X`, B5 (R113) -/
  | ldaZeroPageX (b1 : Byte)
  /-- `LDA $hhll`, AD (R114) -/
  | ldaAbsolute (w : Addr)
  /-- `LDA $hhll,X`, BD (R115) -/
  | ldaAbsoluteX (w : Addr)
  /-- `LDA $hhll,Y`, B9 (R116) -/
  | ldaAbsoluteY (w : Addr)
  /-- `LDA ($nn,X)`, A1 (R117) -/
  | ldaIndirectX (b1 : Byte)
  /-- `LDA ($nn),Y`, B1 (R118) -/
  | ldaIndirectY (b1 : Byte)
  /-- `STA $nn`, 85 (R121) -/
  | staZeroPage (b1 : Byte)
  /-- `STA $nn,X`, 95 (R122) -/
  | staZeroPageX (b1 : Byte)
  /-- `STA $hhll`, 8D (R123) -/
  | staAbsolute (w : Addr)
  /-- `STA $hhll,X`, 9D (R124) -/
  | staAbsoluteX (w : Addr)
  /-- `STA $hhll,Y`, 99 (R125) -/
  | staAbsoluteY (w : Addr)
  /-- `STA ($nn,X)`, 81 (R126) -/
  | staIndirectX (b1 : Byte)
  /-- `STA ($nn),Y`, 91 (R127) -/
  | staIndirectY (b1 : Byte)
  /-- `TAX`, AA (R140) -/
  | tax
  /-- `INX`, E8 (R141) -/
  | inx
  /-- `BRK`, 00 (R150) -/
  | brk
  deriving DecidableEq, Repr

/-- The mode tag of an operand (R88). -/
def Operand.mode : Operand → Mode
  | .immediate _ => .immediate
  | .zeroPage _ => .zeroPage
  | .zeroPageX _ => .zeroPageX
  | .zeroPageY _ => .zeroPageY
  | .absolute _ => .absolute
  | .absoluteX _ => .absoluteX
  | .absoluteY _ => .absoluteY
  | .indirectX _ => .indirectX
  | .indirectY _ => .indirectY
  | .noneAddressing => .noneAddressing

/-- The handler an instruction's row selects (R64, R84). -/
def Instr.mnemonic : Instr → Mnemonic
  | .ldaImmediate _ | .ldaZeroPage _ | .ldaZeroPageX _ | .ldaAbsolute _ => .lda
  | .ldaAbsoluteX _ | .ldaAbsoluteY _ | .ldaIndirectX _ | .ldaIndirectY _ => .lda
  | .staZeroPage _ | .staZeroPageX _ | .staAbsolute _ | .staAbsoluteX _ => .sta
  | .staAbsoluteY _ | .staIndirectX _ | .staIndirectY _ => .sta
  | .tax => .tax
  | .inx => .inx
  | .brk => .brk

/-- The addressing mode of an instruction's row with the instruction's operand bytes (R60, R64). -/
def Instr.operand : Instr → Operand
  | .ldaImmediate b1 => .immediate b1
  | .ldaZeroPage b1 => .zeroPage b1
  | .ldaZeroPageX b1 => .zeroPageX b1
  | .ldaAbsolute w => .absolute w
  | .ldaAbsoluteX w => .absoluteX w
  | .ldaAbsoluteY w => .absoluteY w
  | .ldaIndirectX b1 => .indirectX b1
  | .ldaIndirectY b1 => .indirectY b1
  | .staZeroPage b1 => .zeroPage b1
  | .staZeroPageX b1 => .zeroPageX b1
  | .staAbsolute w => .absolute w
  | .staAbsoluteX w => .absoluteX w
  | .staAbsoluteY w => .absoluteY w
  | .staIndirectX b1 => .indirectX b1
  | .staIndirectY b1 => .indirectY b1
  | .tax => .noneAddressing
  | .inx => .noneAddressing
  | .brk => .noneAddressing

end Sys2Proof
end

