-- ==== Sys2Proof/Decode.lean ====
section
/-!
DEFINITION. Bits to instructions and back: the byte order of a word (R46), the opcode table (R64), the opcode
decoder (R69), the decoder of a byte sequence, the encoder, and the assembler spelling (R70). The opcode byte values
and mnemonics are the spec's decisions D2 and D5 (log entries 8 and 9).
-/
namespace Sys2Proof

/-- The 16-bit word whose low byte is `lo` and high byte is `hi`: `(hi << 8) | lo` (R11, R44). -/
def leWord (lo hi : Byte) : Addr := hi ++ lo

/-- `lo8(w) = w[7:0]` (R11). -/
def lo8 (w : Addr) : Byte := w.extractLsb' 0 8

/-- `hi8(w) = w[15:8]` (R11). -/
def hi8 (w : Addr) : Byte := w.extractLsb' 8 8

/-- The number of operand bytes a mode takes (R62). -/
def Mode.operandBytes : Mode → Nat
  | .immediate | .zeroPage | .zeroPageX | .zeroPageY | .indirectX | .indirectY => 1
  | .absolute | .absoluteX | .absoluteY => 2
  | .noneAddressing => 0

/-- Total instruction length of a mode: 1 + operand bytes (R62). -/
def Mode.length (m : Mode) : Nat := 1 + m.operandBytes

/-- The opcode table (R64): exactly these 18 rows. -/
def opcodeTable : List (Byte × Descriptor) :=
  [ (0xA9, ⟨.lda, .immediate, 2⟩),
    (0xA5, ⟨.lda, .zeroPage, 2⟩),
    (0xB5, ⟨.lda, .zeroPageX, 2⟩),
    (0xAD, ⟨.lda, .absolute, 3⟩),
    (0xBD, ⟨.lda, .absoluteX, 3⟩),
    (0xB9, ⟨.lda, .absoluteY, 3⟩),
    (0xA1, ⟨.lda, .indirectX, 2⟩),
    (0xB1, ⟨.lda, .indirectY, 2⟩) ] ++
  [ (0x85, ⟨.sta, .zeroPage, 2⟩),
    (0x95, ⟨.sta, .zeroPageX, 2⟩),
    (0x8D, ⟨.sta, .absolute, 3⟩),
    (0x9D, ⟨.sta, .absoluteX, 3⟩),
    (0x99, ⟨.sta, .absoluteY, 3⟩),
    (0x81, ⟨.sta, .indirectX, 2⟩),
    (0x91, ⟨.sta, .indirectY, 2⟩) ] ++
  [ (0xAA, ⟨.tax, .noneAddressing, 1⟩),
    (0xE8, ⟨.inx, .noneAddressing, 1⟩),
    (0x00, ⟨.brk, .noneAddressing, 1⟩) ]

/-- `Decode(opcode)`: the row's descriptor, or none where the byte has no row (R69). It reads its argument only. -/
def decodeOpcode (opcode : Byte) : Option Descriptor :=
  (opcodeTable.find? fun row => row.1 == opcode).map Prod.snd

/-- The instruction of a row from its mnemonic and mode, with the operand byte `b1` (format B) or the operand
word `w` (format W); the pairs that are no row of R64 give none. -/
def Instr.ofRow? (mn : Mnemonic) (m : Mode) (b1 : Byte) (w : Addr) : Option Instr :=
  match mn, m with
  | .lda, .immediate => some (.ldaImmediate b1)
  | .lda, .zeroPage => some (.ldaZeroPage b1)
  | .lda, .zeroPageX => some (.ldaZeroPageX b1)
  | .lda, .absolute => some (.ldaAbsolute w)
  | .lda, .absoluteX => some (.ldaAbsoluteX w)
  | .lda, .absoluteY => some (.ldaAbsoluteY w)
  | .lda, .indirectX => some (.ldaIndirectX b1)
  | .lda, .indirectY => some (.ldaIndirectY b1)
  | .sta, .zeroPage => some (.staZeroPage b1)
  | .sta, .zeroPageX => some (.staZeroPageX b1)
  | .sta, .absolute => some (.staAbsolute w)
  | .sta, .absoluteX => some (.staAbsoluteX w)
  | .sta, .absoluteY => some (.staAbsoluteY w)
  | .sta, .indirectX => some (.staIndirectX b1)
  | .sta, .indirectY => some (.staIndirectY b1)
  | .tax, .noneAddressing => some .tax
  | .inx, .noneAddressing => some .inx
  | .brk, .noneAddressing => some .brk
  | _, _ => none

/-- Why a byte sequence gives no instruction. -/
inductive DecodeError where
  /-- There is no byte to decode. -/
  | noBytes
  /-- The first byte has no row in the opcode table (R66). -/
  | unrecognizedOpcode (opcode : Byte)
  /-- The sequence ends inside the operand bytes of this opcode. -/
  | missingOperand (opcode : Byte)
  /-- A table row that pairs a mnemonic with a mode it has no instruction for; no row of R64 does. -/
  | badRow (opcode : Byte)
  deriving DecidableEq, Repr

/-- The operand bytes of a mode, taken from the bytes that follow the opcode: `b1`, the word of `lo` and `hi`, and
what follows them (R60). The part the mode has no use for is 0. -/
def takeOperand (m : Mode) (bytes : List Byte) : Option (Byte × Addr × List Byte) :=
  match m.operandBytes, bytes with
  | 0, rest => some (0, 0, rest)
  | 1, b1 :: rest => some (b1, 0, rest)
  | 2, lo :: hi :: rest => some (0, leWord lo hi, rest)
  | _, _ => none

/-- Decode one instruction from the front of a byte sequence: the instruction and the bytes after it, or the
reason there is none. The opcode byte alone selects row and length (R68). -/
def decode : List Byte → Except DecodeError (Instr × List Byte)
  | [] => .error .noBytes
  | opcode :: bytes =>
    match decodeOpcode opcode with
    | none => .error (.unrecognizedOpcode opcode)
    | some d =>
      match takeOperand d.mode bytes with
      | none => .error (.missingOperand opcode)
      | some (b1, w, rest) =>
        match Instr.ofRow? d.mnemonic d.mode b1 w with
        | none => .error (.badRow opcode)
        | some i => .ok (i, rest)

/-- The addressing mode of an instruction. -/
def Instr.mode (i : Instr) : Mode := i.operand.mode

/-- The total length of an instruction in bytes (R62). -/
def Instr.length (i : Instr) : Nat := i.mode.length

/-- The descriptor of an instruction: mnemonic, mode, length (R61). -/
def Instr.descriptor (i : Instr) : Descriptor := ⟨i.mnemonic, i.mode, i.length⟩

/-- The opcode byte of an instruction, by the spec's table (R64). -/
def Instr.opcode : Instr → Byte
  | .ldaImmediate _ => 0xA9
  | .ldaZeroPage _ => 0xA5
  | .ldaZeroPageX _ => 0xB5
  | .ldaAbsolute _ => 0xAD
  | .ldaAbsoluteX _ => 0xBD
  | .ldaAbsoluteY _ => 0xB9
  | .ldaIndirectX _ => 0xA1
  | .ldaIndirectY _ => 0xB1
  | .staZeroPage _ => 0x85
  | .staZeroPageX _ => 0x95
  | .staAbsolute _ => 0x8D
  | .staAbsoluteX _ => 0x9D
  | .staAbsoluteY _ => 0x99
  | .staIndirectX _ => 0x81
  | .staIndirectY _ => 0x91
  | .tax => 0xAA
  | .inx => 0xE8
  | .brk => 0x00

/-- The operand bytes of an instruction in the order they stand in memory: nothing, `b1`, or `lo` then `hi` (R60). -/
def Operand.bytes : Operand → List Byte
  | .immediate b1 | .zeroPage b1 | .zeroPageX b1 | .zeroPageY b1 | .indirectX b1 | .indirectY b1 => [b1]
  | .absolute w | .absoluteX w | .absoluteY w => [lo8 w, hi8 w]
  | .noneAddressing => []

/-- The bytes of an instruction in rising address order (R60). -/
def encode (i : Instr) : List Byte := i.opcode :: i.operand.bytes

/-- Byte `k` of a number, bits `8k+7` to `8k`. -/
def byteOfNat (w k : Nat) : Byte := BitVec.ofNat 8 (w >>> (8 * k))

/-- The three bytes of an instruction whose `nbits` low bits are those of `w` and whose other bits are 0: the
first byte holds the least significant bits, as spec/opcode_table.json numbers them. -/
def tableBytes (nbits w : Nat) : List Byte :=
  let v := w % 2 ^ nbits
  [byteOfNat v 0, byteOfNat v 1, byteOfNat v 2]

/-- The instruction the decoder reads from an instruction whose low `nbits` bits are `w`, all higher bits 0. -/
def decodeTableWord (nbits w : Nat) : Option Instr :=
  match decode (tableBytes nbits w) with
  | .ok (i, _) => some i
  | .error _ => none

/-- A hexadecimal digit, for `n` below 16. -/
def hexDigit (n : Nat) : Char :=
  if n < 10 then Char.ofNat (48 + n) else Char.ofNat (55 + n)

/-- The two hexadecimal digits of a byte. -/
def hexByte (b : Byte) : List Char := [hexDigit (b.toNat / 16), hexDigit (b.toNat % 16)]

/-- The four hexadecimal digits of an address. -/
def hexAddr (w : Addr) : List Char := hexByte (hi8 w) ++ hexByte (lo8 w)

/-- The name of a handler (R3; from general knowledge, log entry 8). -/
def Mnemonic.name : Mnemonic → List Char
  | .lda => ['L', 'D', 'A']
  | .sta => ['S', 'T', 'A']
  | .tax => ['T', 'A', 'X']
  | .inx => ['I', 'N', 'X']
  | .brk => ['B', 'R', 'K']

/-- An operand in the assembler spelling of R70: `#$nn`, `$nn`, `$nn,X`, `$nn,Y`, `$nnnn`, `$nnnn,X`, `$nnnn,Y`,
`($nn,X)`, `($nn),Y`, or nothing. -/
def Operand.assembly : Operand → List Char
  | .immediate b1 => [' ', '#', '$'] ++ hexByte b1
  | .zeroPage b1 => [' ', '$'] ++ hexByte b1
  | .zeroPageX b1 => [' ', '$'] ++ hexByte b1 ++ [',', 'X']
  | .zeroPageY b1 => [' ', '$'] ++ hexByte b1 ++ [',', 'Y']
  | .absolute w => [' ', '$'] ++ hexAddr w
  | .absoluteX w => [' ', '$'] ++ hexAddr w ++ [',', 'X']
  | .absoluteY w => [' ', '$'] ++ hexAddr w ++ [',', 'Y']
  | .indirectX b1 => [' ', '(', '$'] ++ hexByte b1 ++ [',', 'X', ')']
  | .indirectY b1 => [' ', '(', '$'] ++ hexByte b1 ++ [')', ',', 'Y']
  | .noneAddressing => []

/-- An instruction in the assembler spelling of R70: presentation only, with no effect on the machine (D23). -/
def Instr.assembly (i : Instr) : List Char := i.mnemonic.name ++ i.operand.assembly

end Sys2Proof
end

