-- ==== Sys2Proof/Machine/State.lean ====
section
/-!
DEFINITION. The architectural state (10_state.md), the two fatal errors (R160, R161), the host's refusals, and the
machine right after reset (R33, R183).
-/
namespace Sys2Proof.Machine

/-- The fatal errors of the core (60_exceptions.md); there is no other (R164). A closed list. -/
inductive Fault where
  /-- Kind 1 (R160): raised by the step when the fetched byte `opcode`, at `addr`, has no row in the opcode table.
  Safe: the spec makes it fatal. -/
  | unrecognizedOpcode (opcode : Byte) (addr : Addr)
  /-- Kind 2 (R161): raised by the resolver for a mode it cannot resolve: NoneAddressing always, Indirect_Y when
  `INDIRECT_Y_SUPPORTED` is false. Safe: the spec makes it fatal. -/
  | unsupportedAddressingMode (mode : Mode)
  deriving DecidableEq, Repr

/-- What the model gives no meaning. No step of the machine answers one: the last two are answers to host
transactions. A closed list. -/
inductive Refusal where
  /-- Raised by an arm of `exec` that has no meaning yet; no arm does. Safe. -/
  | notModelled (mnemonic : String)
  /-- Raised by the host transaction `load` for an image longer than 0x8000 bytes (R181, decision D13). Safe. -/
  | imageTooLong (length : Nat)
  /-- Raised by every host transaction after a fatal error (R188, decision D12). Safe. -/
  | afterFault
  deriving DecidableEq, Repr

/-- The run state of the execution loop (R30): Running, Halted, and the terminal Faulted a fatal error leaves. -/
inductive RunState where
  | running
  | halted
  | faulted (f : Fault)
  deriving DecidableEq, Repr

/-- Memory: the cells of the 65 536-byte array (R40) that do not read 0x00, by rising address. An address that is not
listed reads 0x00, the value every byte has after `construct` (R33). -/
abbrev Memory := List Host.Cell

/-- The whole architectural state (R2, R20, R23, R25, R30, R40); nothing else persists between steps (R29, R31). -/
structure State where
  /-- accumulator `A` (R20) -/
  a   : Byte
  /-- index register `X` (R20) -/
  x   : Byte
  /-- index register `Y` (R20) -/
  y   : Byte
  /-- status `P` (R25): N is bit 7, Z is bit 1, the other bits are reserved -/
  p   : Byte
  /-- program counter `PC` (R23) -/
  pc  : Addr
  /-- run state (R30) -/
  run : RunState
  /-- memory (R40) -/
  mem : Memory
  deriving DecidableEq, Repr

/-- The machine right after `construct` and `reset` (R33): registers and status 0, memory 0x00 everywhere, `PC` from
the reset vector of that memory, which is 0x0000, Running. -/
def State.reset : State :=
  { a := 0, x := 0, y := 0, p := 0, pc := 0, run := .running, mem := [] }

end Sys2Proof.Machine
end

