-- ==== Sys2Proof/Machine/Ops.lean ====
section
/-!
DEFINITION. The named operations: the memory bus (20_memory.md), one write per register, and what a fatal error
leaves (R162). Every access to memory or a register goes through these.
-/
namespace Sys2Proof.Machine

/-- What an address that is not listed reads as: 0x00 (R33, R40, R55). -/
def unlistedByte : Byte := 0x00

/-- The cell at key `k`. -/
def lookupCell : List Host.Cell → Nat → Byte
  | [], _ => unlistedByte
  | (j, v) :: rest, k => if j = k then v else lookupCell rest k

/-- The list without any cell at key `k`. -/
def eraseCell : List Host.Cell → Nat → List Host.Cell
  | [], _ => []
  | (j, v) :: rest, k => if j = k then eraseCell rest k else (j, v) :: eraseCell rest k

/-- The list with a cell `(k, v)` put before the first cell of a higher key. -/
def insertCell : List Host.Cell → Nat → Byte → List Host.Cell
  | [], k, v => [(k, v)]
  | (j, u) :: rest, k, v => if k < j then (k, v) :: (j, u) :: rest else (j, u) :: insertCell rest k v

/-- The canonical form from key `lo` on: keys rising, at least `lo`, below 65 536, and no cell equal to what an
unlisted address reads as. -/
def wfFrom : Nat → List Host.Cell → Bool
  | _, [] => true
  | lo, (k, v) :: rest => decide (lo ≤ k) && decide (k < 65536) && (v != unlistedByte) && wfFrom (k + 1) rest

/-- The canonical form of a memory: addresses strictly rising, inside the address space, no listed 0x00. -/
def Memory.wf (m : Memory) : Bool := wfFrom 0 m

/-- `MemRead(addr, 1)` (R42). -/
def Memory.read (m : Memory) (addr : Addr) : Byte := lookupCell m addr.toNat

/-- `MemWrite(addr, 1, v)` (R43), keeping the canonical form. -/
def Memory.write (m : Memory) (addr : Addr) (v : Byte) : Memory :=
  if v = unlistedByte then eraseCell m addr.toNat else insertCell (eraseCell m addr.toNat) addr.toNat v

/-- `ReadWord(addr)`: low byte at `addr`, high byte at `addr +16 1` (R44, conflict C1). -/
def Memory.readWord (m : Memory) (addr : Addr) : Addr := leWord (m.read addr) (m.read (addr + 1))

/-- `WriteWord(addr, w)`: low byte first, then the high byte at `addr +16 1` (R45). -/
def Memory.writeWord (m : Memory) (addr w : Addr) : Memory := (m.write addr (lo8 w)).write (addr + 1) (hi8 w)

/-- `zext_16(b)` (R12). -/
def zext16 (b : Byte) : Addr := b.setWidth 16

/-- The word at a zero-page pointer: its high byte is at the pointer plus 1 modulo 256 (R46, R97, R98). -/
def Memory.readZeroPageWord (m : Memory) (ptr : Byte) : Addr :=
  leWord (m.read (zext16 ptr)) (m.read (zext16 (ptr + 1)))

/-- Bytes copied to rising addresses from `base` on, modulo 65 536 (the copy of `load`, R181). -/
def Memory.copy : Memory → Addr → List Byte → Memory
  | m, _, [] => m
  | m, base, b :: bs => Memory.copy (m.write base b) (base + 1) bs

/-- `A <- v`. -/
def State.setA (s : State) (v : Byte) : State := { s with a := v }

/-- `X <- v`. -/
def State.setX (s : State) (v : Byte) : State := { s with x := v }

/-- `P <- v`. -/
def State.setP (s : State) (v : Byte) : State := { s with p := v }

/-- `PC <- v`. -/
def State.setPC (s : State) (v : Addr) : State := { s with pc := v }

/-- `run <- r`. -/
def State.setRun (s : State) (r : RunState) : State := { s with run := r }

/-- The memory becomes `m`. -/
def State.setMem (s : State) (m : Memory) : State := { s with mem := m }

/-- `MemWrite(addr, 1, v)` on the machine's memory (R43). -/
def State.store (s : State) (addr : Addr) (v : Byte) : State := s.setMem (s.mem.write addr v)

/-- The fetch's advance: `PC <- PC +16 1` (R81). -/
def State.fetched (s : State) : State := s.setPC (s.pc + 1)

/-- What a fatal error leaves of the state `s` its step began in (R162): the `PC` as the fetch advanced it, the run
state Faulted, nothing else changed. It saves no register, changes no mode and goes to no handler: the core has no
trap mechanism (R166) and no return from one (R168). -/
def State.raise (s : State) (f : Fault) : State := s.fetched.setRun (.faulted f)

/-- The kind code of a fatal error (R163). -/
def Fault.kindCode : Fault → Nat
  | .unrecognizedOpcode _ _ => 1
  | .unsupportedAddressingMode _ => 2

end Sys2Proof.Machine
end

