-- ==== Sys2Proof/Machine/Break.lean ====
section
/-!
DEFINITION. BRK (43_break.md): it halts the core; it pushes nothing, reads no vector and sets no flag (R151).
-/
namespace Sys2Proof.Machine

/-- BRK (R150): `run <- Halted`; no register, flag or memory effect. -/
def execBrk (s : State) : Host.Outcome State Fault Refusal := .next (s.setRun .halted)

end Sys2Proof.Machine
end

