-- ==== Sys2Proof/Machine/Flags.lean ====
section
/-!
DEFINITION. The status register's fields (R25) and the one flag-update routine (R100, R101). The places of the
reserved bits are the family's (log entry 10); no rule reads them.
-/
namespace Sys2Proof.Machine

/-- N, the negative flag: `P[7]` (R25). -/
def flagN (p : Byte) : Bool := p.getLsbD 7

/-- V, overflow: `P[6]`, reserved (R25). -/
def flagV (p : Byte) : Bool := p.getLsbD 6

/-- The unused bit `P[5]`, reserved; it reads as stored (R26). -/
def flagUnused (p : Byte) : Bool := p.getLsbD 5

/-- B, break: `P[4]`, reserved (R25). -/
def flagB (p : Byte) : Bool := p.getLsbD 4

/-- D, decimal: `P[3]`, reserved (R25). -/
def flagD (p : Byte) : Bool := p.getLsbD 3

/-- I, interrupt-disable: `P[2]`, reserved; it masks nothing (R167). -/
def flagI (p : Byte) : Bool := p.getLsbD 2

/-- Z, the zero flag: `P[1]` (R25). -/
def flagZ (p : Byte) : Bool := p.getLsbD 1

/-- C, carry: `P[0]`, reserved; no addition writes it (R102). -/
def flagC (p : Byte) : Bool := p.getLsbD 0

/-- `UpdateZN(r)`: the new `P` from the 8-bit result `r` and the current `P` (R100). -/
def updateZN (r p : Byte) : Byte :=
  (p &&& 0x7D) ||| (if r = 0x00 then 0x02 else 0x00) ||| (r &&& 0x80)

/-- The machine with Z and N set from the result `r` (R100). -/
def State.setZN (s : State) (r : Byte) : State := s.setP (updateZN r s.p)

end Sys2Proof.Machine
end

