-- ==== Sys2Proof/Config.lean ====
section
/-!
DEFINITION. What is fixed for one machine and open in the spec: the single named parameter of 00_scope.md R7.
The value the model's own step uses is `Machine.chosenConfig`, in Machine/Operands.lean.
-/
namespace Sys2Proof

/-- The open parameter of the core (R7, decision D3), an argument of the resolver and of the handlers. -/
structure Config where
  /-- `INDIRECT_Y_SUPPORTED`: the resolver resolves mode Indirect_Y by R98; if false, it raises (R161). -/
  indirectYSupported : Bool
  deriving DecidableEq, Repr

end Sys2Proof
end

