-- ==== Sys2Proof/Machine/Operands.lean ====
section
/-!
DEFINITION. The addressing-mode resolver (R89-R99) over an operand that holds the instruction's own operand bytes,
and the value of the open parameter that this model's step uses (R7, log entry 1). The resolver reading those bytes
at `PC`, letter for letter as the spec writes it, is Pseudocode.lean's.
-/
namespace Sys2Proof.Machine

/-- The spec's own choice for the open parameter: `INDIRECT_Y_SUPPORTED` is true (R7, decision D3).
DESIGN CHOICE, unsafe: log entry 1. -/
def chosenConfig : Config := { indirectYSupported := true }

/-- The effective address of an operand (R89): a function of `PC`, `X`, `Y` and memory that writes nothing. `PC` is
the address of the first operand byte (R82). Each arm is the rule of its mode, R90 to R99. -/
def effectiveAddress (c : Config) (op : Operand) (s : State) : Except Fault Addr :=
  match op with
  | .immediate _ => .ok s.pc
  | .zeroPage b1 => .ok (zext16 b1)
  | .zeroPageX b1 => .ok (zext16 (b1 + s.x))
  | .zeroPageY b1 => .ok (zext16 (b1 + s.y))
  | .absolute w => .ok w
  | .absoluteX w => .ok (w + zext16 s.x)
  | .absoluteY w => .ok (w + zext16 s.y)
  | .indirectX b1 => .ok (s.mem.readZeroPageWord (b1 + s.x))
  | .indirectY b1 =>
    if c.indirectYSupported then .ok (s.mem.readZeroPageWord b1 + zext16 s.y)
    else .error (.unsupportedAddressingMode .indirectY)
  | .noneAddressing => .error (.unsupportedAddressingMode .noneAddressing)

/-- The byte a load reads at the effective address `ea` (R110). In mode Immediate `ea` is the address of the operand
byte, so that byte is `b1` itself (R63, R111; DEDUCED, log entry 5); in every other mode it is `MemRead(ea, 1)`. -/
def dataByte (op : Operand) (ea : Addr) (s : State) : Byte :=
  match op with
  | .immediate b1 => b1
  | _ => s.mem.read ea

end Sys2Proof.Machine
end

