-- ==== Sys2Proof/Machine/LoadStore.lean ====
section
/-!
DEFINITION. LDA and STA (41_load_store.md): the two handlers, written once, and one meaning per row of the table.
-/
namespace Sys2Proof.Machine

/-- LDA (R110): the byte at the effective address into `A`, Z and N from the new `A`; a mode the resolver cannot
resolve raises before anything is read or written. -/
def lda (c : Config) (op : Operand) (s : State) : Host.Outcome State Fault Refusal :=
  match effectiveAddress c op s with
  | .error f => .fault f
  | .ok ea => .next ((s.setA (dataByte op ea s)).setZN (dataByte op ea s))

/-- STA (R120): `A` to the effective address; no register and no flag changes. -/
def sta (c : Config) (op : Operand) (s : State) : Host.Outcome State Fault Refusal :=
  match effectiveAddress c op s with
  | .error f => .fault f
  | .ok ea => .next (s.store ea s.a)

/-- LDA Immediate (R111). -/
def execLdaImmediate (b1 : Byte) (s : State) : Host.Outcome State Fault Refusal := lda chosenConfig (.immediate b1) s

/-- LDA ZeroPage (R112). -/
def execLdaZeroPage (b1 : Byte) (s : State) : Host.Outcome State Fault Refusal := lda chosenConfig (.zeroPage b1) s

/-- LDA ZeroPage_X (R113). -/
def execLdaZeroPageX (b1 : Byte) (s : State) : Host.Outcome State Fault Refusal := lda chosenConfig (.zeroPageX b1) s

/-- LDA Absolute (R114). -/
def execLdaAbsolute (w : Addr) (s : State) : Host.Outcome State Fault Refusal := lda chosenConfig (.absolute w) s

/-- LDA Absolute_X (R115). -/
def execLdaAbsoluteX (w : Addr) (s : State) : Host.Outcome State Fault Refusal := lda chosenConfig (.absoluteX w) s

/-- LDA Absolute_Y (R116). -/
def execLdaAbsoluteY (w : Addr) (s : State) : Host.Outcome State Fault Refusal := lda chosenConfig (.absoluteY w) s

/-- LDA Indirect_X (R117). -/
def execLdaIndirectX (b1 : Byte) (s : State) : Host.Outcome State Fault Refusal := lda chosenConfig (.indirectX b1) s

/-- LDA Indirect_Y (R118). -/
def execLdaIndirectY (b1 : Byte) (s : State) : Host.Outcome State Fault Refusal := lda chosenConfig (.indirectY b1) s

/-- STA ZeroPage (R121). -/
def execStaZeroPage (b1 : Byte) (s : State) : Host.Outcome State Fault Refusal := sta chosenConfig (.zeroPage b1) s

/-- STA ZeroPage_X (R122). -/
def execStaZeroPageX (b1 : Byte) (s : State) : Host.Outcome State Fault Refusal := sta chosenConfig (.zeroPageX b1) s

/-- STA Absolute (R123). -/
def execStaAbsolute (w : Addr) (s : State) : Host.Outcome State Fault Refusal := sta chosenConfig (.absolute w) s

/-- STA Absolute_X (R124). -/
def execStaAbsoluteX (w : Addr) (s : State) : Host.Outcome State Fault Refusal := sta chosenConfig (.absoluteX w) s

/-- STA Absolute_Y (R125). -/
def execStaAbsoluteY (w : Addr) (s : State) : Host.Outcome State Fault Refusal := sta chosenConfig (.absoluteY w) s

/-- STA Indirect_X (R126). -/
def execStaIndirectX (b1 : Byte) (s : State) : Host.Outcome State Fault Refusal := sta chosenConfig (.indirectX b1) s

/-- STA Indirect_Y (R127). -/
def execStaIndirectY (b1 : Byte) (s : State) : Host.Outcome State Fault Refusal := sta chosenConfig (.indirectY b1) s

end Sys2Proof.Machine
end

