-- ==== Sys2Proof/Machine/Transfer.lean ====
section
/-!
DEFINITION. TAX and INX (42_transfer_increment.md).
-/
namespace Sys2Proof.Machine

/-- TAX (R140): `X <- A`, Z and N from the new `X`. -/
def execTax (s : State) : Host.Outcome State Fault Refusal := .next ((s.setX s.a).setZN s.a)

/-- INX (R141): `X <- X +8 1`, Z and N from the new `X`; the carry is discarded. -/
def execInx (s : State) : Host.Outcome State Fault Refusal := .next ((s.setX (s.x + 1)).setZN (s.x + 1))

end Sys2Proof.Machine
end

