-- ==== Sys2Proof/Machine/Dispatch.lean ====
section
/-!
DEFINITION. Dispatch (R84): the handler of each row, run on the state after the fetch (PC at the first operand byte).
-/
namespace Sys2Proof.Machine

def exec (i : Instr) (s : State) : Host.Outcome State Fault Refusal :=
  match i with
  | .ldaImmediate b1 => Sys2Proof.Machine.execLdaImmediate b1 s
  | .ldaZeroPage b1 => Sys2Proof.Machine.execLdaZeroPage b1 s
  | .ldaZeroPageX b1 => Sys2Proof.Machine.execLdaZeroPageX b1 s
  | .ldaAbsolute w => Sys2Proof.Machine.execLdaAbsolute w s
  | .ldaAbsoluteX w => Sys2Proof.Machine.execLdaAbsoluteX w s
  | .ldaAbsoluteY w => Sys2Proof.Machine.execLdaAbsoluteY w s
  | .ldaIndirectX b1 => Sys2Proof.Machine.execLdaIndirectX b1 s
  | .ldaIndirectY b1 => Sys2Proof.Machine.execLdaIndirectY b1 s
  | .staZeroPage b1 => Sys2Proof.Machine.execStaZeroPage b1 s
  | .staZeroPageX b1 => Sys2Proof.Machine.execStaZeroPageX b1 s
  | .staAbsolute w => Sys2Proof.Machine.execStaAbsolute w s
  | .staAbsoluteX w => Sys2Proof.Machine.execStaAbsoluteX w s
  | .staAbsoluteY w => Sys2Proof.Machine.execStaAbsoluteY w s
  | .staIndirectX b1 => Sys2Proof.Machine.execStaIndirectX b1 s
  | .staIndirectY b1 => Sys2Proof.Machine.execStaIndirectY b1 s
  | .tax => Sys2Proof.Machine.execTax s
  | .inx => Sys2Proof.Machine.execInx s
  | .brk => Sys2Proof.Machine.execBrk s

end Sys2Proof.Machine
end

