-- ==== Sys2Proof/Machine/Sequencer.lean ====
section
/-!
DEFINITION. The program-counter sequencer (R80-R87): fetch, decode, dispatch, fix-up. It is written once, over the
handler it dispatches to: `step` (Step.lean) gives it `exec`, `stepWith` gives it the handlers for either value of the
open parameter (R7).
-/
namespace Sys2Proof.Machine

/-- The bytes at `PC`, `PC +16 1`, `PC +16 2` (R60): as many as the longest instruction has. Reading more than the
instruction uses has no effect (R50; DEDUCED, log entry 6). -/
def State.fetchWindow (s : State) : List Byte :=
  [s.mem.read s.pc, s.mem.read (s.pc + 1), s.mem.read (s.pc + 2)]

/-- The fix-up (R85): if `PC` still equals `pcBeforeDispatch`, skip the operand bytes; the test is the literal
equality of the two values (decision D25). -/
def fixUp (pcBeforeDispatch : Addr) (length : Nat) (s : State) : State :=
  if s.pc = pcBeforeDispatch then s.setPC (s.pc + BitVec.ofNat 16 (length - 1)) else s

/-- The end of a step after its handler (R80): a halt or a fault ends it there (R150); otherwise the fix-up runs. -/
def finish (pcBeforeDispatch : Addr) (length : Nat) :
    Host.Outcome State Fault Refusal → Host.Outcome State Fault Refusal
  | .next s => .next (if s.run = .halted then s else fixUp pcBeforeDispatch length s)
  | .fault f => .fault f
  | .refused r => .refused r

/-- One step of the execution loop over a handler (R80). Running: fetch, decode, dispatch on the state after the
fetch, fix-up; a byte with no row raises `UnrecognizedOpcode` with the byte and its address (R83, R160). Halted: no
step executes, the state stays (R152; DESIGN CHOICE, log entry 3). Faulted: terminal, the same fault again (R30, R162;
DESIGN CHOICE, log entry 4). -/
def sequencerStep (handler : Instr → State → Host.Outcome State Fault Refusal) (s : State) :
    Host.Outcome State Fault Refusal :=
  match s.run with
  | .halted => .next s
  | .faulted f => .fault f
  | .running =>
    match decode s.fetchWindow with
    | .error _ => .fault (.unrecognizedOpcode (s.mem.read s.pc) s.pc)
    | .ok (i, _) => finish s.fetched.pc i.length (handler i s.fetched)

/-- `Execute(mnemonic, mode)` (R84) for either value of the open parameter: a closed choice over the five
mnemonics. For `chosenConfig` it is `exec`. -/
def execute (c : Config) (i : Instr) (s : State) : Host.Outcome State Fault Refusal :=
  match i.mnemonic with
  | .lda => lda c i.operand s
  | .sta => sta c i.operand s
  | .tax => execTax s
  | .inx => execInx s
  | .brk => execBrk s

/-- The step of the machine with the open parameter at `c` (R7). For `chosenConfig` it is `step`. -/
def stepWith (c : Config) (s : State) : Host.Outcome State Fault Refusal := sequencerStep (execute c) s

/-- The bytes of a list stored from `PC` on, and the machine Running: what fetching them as the next instruction
needs. -/
def State.placeAtPC (s : State) (bytes : List Byte) : State :=
  (s.setMem (s.mem.copy s.pc bytes)).setRun .running

end Sys2Proof.Machine
end

