-- ==== Sys2Proof/Machine/Step.lean ====
section
/-!
DEFINITION. One step of the machine (R80) and the placing of an instruction where it fetches next.
-/
namespace Sys2Proof.Machine

/-- One step of the core (R10, R80): Next and Halted are `.next` (a halted machine has `run = .halted`), Fault is
`.fault`. -/
def step (s : State) : Host.Outcome State Fault Refusal := sequencerStep exec s

/-- `s` with the instruction whose low `nbits` bits are `w` stored where `step` fetches next, Running. -/
def State.withFetchWord (s : State) (nbits w : Nat) : State := s.placeAtPC (tableBytes nbits w)

end Sys2Proof.Machine
end

