-- ==== Sys2Proof/Machine/Bus.lean ====
section
/-!
DEFINITION. The memory accesses of one step, in order (R53, R54): the opcode fetch, the resolver's operand reads by
rising address, its pointer reads low byte first, then the handler's one data access. There is no dummy read and no
second write (91_not_in_source.md G11).
-/
namespace Sys2Proof.Machine

/-- One byte access on the bus. -/
inductive Access where
  | read (addr : Addr)
  | write (addr : Addr) (v : Byte)
  deriving DecidableEq, Repr

/-- The operand bytes the resolver reads from `pc` on (R53): none in mode Immediate, whose operand byte the handler
reads as its data (R90). -/
def operandReads (op : Operand) (pc : Addr) : List Access :=
  match op with
  | .immediate _ | .noneAddressing => []
  | .zeroPage _ | .zeroPageX _ | .zeroPageY _ | .indirectX _ | .indirectY _ => [.read pc]
  | .absolute _ | .absoluteX _ | .absoluteY _ => [.read pc, .read (pc + 1)]

/-- The two reads of the word at a zero-page pointer, low byte first (R97, R98). -/
def pointerPair (ptr : Byte) : List Access := [.read (zext16 ptr), .read (zext16 (ptr + 1))]

/-- The pointer bytes the resolver reads (R53): two in the indirect modes, none elsewhere. -/
def pointerReads (op : Operand) (s : State) : List Access :=
  match op with
  | .indirectX b1 => pointerPair (b1 + s.x)
  | .indirectY b1 => pointerPair b1
  | _ => []

/-- The accesses of LDA or STA (R53, R54): the resolver's reads, then the one data access; none where the resolver
raises, which it does before it reads (R98, R162). -/
def resolvedAccesses (c : Config) (op : Operand) (data : Addr → Access) (s : State) : List Access :=
  match effectiveAddress c op s with
  | .error _ => []
  | .ok ea => operandReads op s.pc ++ pointerReads op s ++ [data ea]

/-- The accesses of a handler, on the state after the fetch (R53). -/
def handlerAccesses (c : Config) (i : Instr) (s : State) : List Access :=
  match i.mnemonic with
  | .lda => resolvedAccesses c i.operand Access.read s
  | .sta => resolvedAccesses c i.operand (fun ea => Access.write ea s.a) s
  | .tax | .inx | .brk => []

/-- The accesses of one step in order (R54); none while the core is not Running (R152). -/
def stepAccesses (c : Config) (s : State) : List Access :=
  match s.run with
  | .halted | .faulted _ => []
  | .running =>
    Access.read s.pc ::
      match decode s.fetchWindow with
      | .error _ => []
      | .ok (i, _) => handlerAccesses c i s.fetched

end Sys2Proof.Machine
end

