-- ==== Sys2Proof/Machine/Pseudocode.lean ====
section
/-!
DEFINITION. The step as the spec writes it (R80), for comparison with `step`: the decoder sees the opcode byte only
(R61, R68), and the resolver reads the operand bytes at `PC` through the bus (R63, R89). Nothing of the model's step
depends on this file; a statement says the two agree.
-/
namespace Sys2Proof.Machine.Pseudocode

/-- `Resolve(mode)` (R89), rule by rule: R90 to R99. -/
def resolve (c : Config) (mode : Mode) (s : State) : Except Fault Addr :=
  match mode with
  | .immediate => .ok s.pc
  | .zeroPage => .ok ((s.mem.read s.pc).setWidth 16)
  | .zeroPageX => .ok ((s.mem.read s.pc + s.x).setWidth 16)
  | .zeroPageY => .ok ((s.mem.read s.pc + s.y).setWidth 16)
  | .absolute => .ok (s.mem.readWord s.pc)
  | .absoluteX => .ok (s.mem.readWord s.pc + s.x.setWidth 16)
  | .absoluteY => .ok (s.mem.readWord s.pc + s.y.setWidth 16)
  | .indirectX =>
    let ptr := s.mem.read s.pc + s.x
    let lo := s.mem.read (ptr.setWidth 16)
    let hi := s.mem.read ((ptr + 1).setWidth 16)
    .ok (hi ++ lo)
  | .indirectY =>
    if c.indirectYSupported then
      let ptr := s.mem.read s.pc
      let lo := s.mem.read (ptr.setWidth 16)
      let hi := s.mem.read ((ptr + 1).setWidth 16)
      .ok ((hi ++ lo) + s.y.setWidth 16)
    else .error (.unsupportedAddressingMode .indirectY)
  | .noneAddressing => .error (.unsupportedAddressingMode .noneAddressing)

/-- `LDA(mode)` (R110). -/
def lda (c : Config) (mode : Mode) (s : State) : Host.Outcome State Fault Refusal :=
  match resolve c mode s with
  | .error f => .fault f
  | .ok ea =>
    let v := s.mem.read ea
    .next { s with a := v, p := updateZN v s.p }

/-- `STA(mode)` (R120). -/
def sta (c : Config) (mode : Mode) (s : State) : Host.Outcome State Fault Refusal :=
  match resolve c mode s with
  | .error f => .fault f
  | .ok ea => .next { s with mem := s.mem.write ea s.a }

/-- `Execute(mnemonic, mode)` (R84). -/
def executeMode (c : Config) (mn : Mnemonic) (mode : Mode) (s : State) : Host.Outcome State Fault Refusal :=
  match mn with
  | .lda => lda c mode s
  | .sta => sta c mode s
  | .tax => .next { s with x := s.a, p := updateZN s.a s.p }
  | .inx => .next { s with x := s.x + 1, p := updateZN (s.x + 1) s.p }
  | .brk => .next { s with run := .halted }

/-- `Step()` (R80), taken only while `run = Running`. -/
def step (c : Config) (s : State) : Host.Outcome State Fault Refusal :=
  let fetchAddr := s.pc
  let opcode := s.mem.read s.pc
  let s1 := { s with pc := s.pc + 1 }
  let pcBeforeDispatch := s1.pc
  match decodeOpcode opcode with
  | none => .fault (.unrecognizedOpcode opcode fetchAddr)
  | some d =>
    match executeMode c d.mnemonic d.mode s1 with
    | .fault f => .fault f
    | .refused r => .refused r
    | .next s2 =>
      if s2.run = .halted then .next s2
      else if s2.pc = pcBeforeDispatch then .next { s2 with pc := s2.pc + BitVec.ofNat 16 (d.length - 1) }
      else .next s2

end Sys2Proof.Machine.Pseudocode
end

