-- ==== Sys2Proof/Machine/Transactions.lean ====
section
/-!
DEFINITION. The host's transactions (R8): construct, load, reset, run, load_and_run, read, write, regs, with the table
of what is accepted when (R188). A run is not a transaction's argument: nothing the host does can land inside one
(R52, R87). After a fatal error every transaction is refused (decision D12).
-/
namespace Sys2Proof.Machine

/-- `PROG_BASE` (R6). -/
def progBase : Addr := 0x8000

/-- `RESET_VEC`: the address of the vector's low byte (R6, R48). -/
def resetVector : Addr := 0xFFFC

/-- `MAX_IMAGE`: the longest image `load` accepts (R6). -/
def maxImage : Nat := 0x8000

/-- `construct` (R180): every register, flag and memory byte 0, Running. -/
def construct : State :=
  { a := 0, x := 0, y := 0, p := 0, pc := 0, run := .running, mem := [] }

/-- The state `load` leaves (R181): the image from 0x8000 on, then the word 0x8000 at the reset vector. -/
def State.loaded (s : State) (image : List Byte) : State :=
  s.setMem ((s.mem.copy progBase image).writeWord resetVector progBase)

/-- The state `reset` leaves (R183): `A`, `X`, `Y`, `P` zero, `PC` from the reset vector as it stands in memory,
Running, memory unchanged. -/
def State.afterReset (s : State) : State :=
  { a := 0, x := 0, y := 0, p := 0, pc := s.mem.readWord resetVector, run := .running, mem := s.mem }

/-- After a fatal error every transaction is refused; otherwise the transaction's answer stands (R188). -/
def State.unlessFaulted (s : State) (answer : Host.Outcome State Fault Refusal) :
    Host.Outcome State Fault Refusal :=
  match s.run with
  | .faulted _ => .refused .afterFault
  | .running | .halted => answer

/-- The transaction `load(image)` (R181): an image longer than 0x8000 bytes is refused (decision D13). -/
def hostLoad (image : List Byte) (s : State) : Host.Outcome State Fault Refusal :=
  s.unlessFaulted (if image.length ≤ maxImage then .next (s.loaded image) else .refused (.imageTooLong image.length))

/-- The transaction `reset` (R183). -/
def hostReset (s : State) : Host.Outcome State Fault Refusal := s.unlessFaulted (.next s.afterReset)

/-- The transaction `write(addr, value)` (R52): `MemWrite(addr, 1, value)`. -/
def hostWrite (addr : Addr) (v : Byte) (s : State) : Host.Outcome State Fault Refusal :=
  s.unlessFaulted (.next (s.store addr v))

/-- The transaction `read(addr)` (R52): `MemRead(addr, 1)`. -/
def hostRead (addr : Addr) (s : State) : Except Refusal Byte :=
  match s.run with
  | .faulted _ => .error .afterFault
  | .running | .halted => .ok (s.mem.read addr)

/-- What `regs()` observes (R8): `(A, X, Y, P, PC, run)`. -/
structure Regs where
  a   : Byte
  x   : Byte
  y   : Byte
  p   : Byte
  pc  : Addr
  run : RunState
  deriving DecidableEq, Repr

/-- The transaction `regs()` (R8, conflict C5): a read-only observation. -/
def hostRegs (s : State) : Except Refusal Regs :=
  match s.run with
  | .faulted _ => .error .afterFault
  | .running | .halted => .ok ⟨s.a, s.x, s.y, s.p, s.pc, s.run⟩

/-- How a run ends (R185, R186). -/
inductive RunResult where
  /-- `run` returned Halted, with the state it left. -/
  | halted (s : State)
  /-- `run` returned `Fault(kind, info)`, with the terminal state (R162). -/
  | fault (f : Fault) (s : State)
  /-- The fuel is used up: not yet finished, never a halt (R186, decision D21). -/
  | unfinished (s : State)
  /-- The transaction was refused. -/
  | refused (r : Refusal)
  deriving DecidableEq, Repr

/-- The transaction `run` (R185) with at most `fuel` steps, over a step function: a halted core returns Halted with
no step, a running one steps until it halts or faults. -/
def runBy (stepOf : State → Host.Outcome State Fault Refusal) (fuel : Nat) (s : State) : RunResult :=
  match s.run with
  | .faulted _ => .refused .afterFault
  | .halted => .halted s
  | .running =>
    match fuel with
    | 0 => .unfinished s
    | n + 1 =>
      match stepOf s with
      | .next s' => runBy stepOf n s'
      | .fault f => .fault f (s.raise f)
      | .refused r => .refused r

/-- The transaction `run` of this machine (R185). -/
def hostRun (fuel : Nat) (s : State) : RunResult := runBy step fuel s

/-- The transaction `load_and_run(image)` (R187): `load(image); reset(); run()`. -/
def hostLoadAndRun (fuel : Nat) (image : List Byte) (s : State) : RunResult :=
  match hostLoad image s with
  | .fault f => .fault f s
  | .refused r => .refused r
  | .next s1 =>
    match hostReset s1 with
    | .fault f => .fault f s1
    | .refused r => .refused r
    | .next s2 => hostRun fuel s2

end Sys2Proof.Machine
end

