-- ==== Sys2Proof/Safety.lean ====
section
/-!
DEFINITION. What counts as a safe state and a safe run, in the terms the statements use.
-/
namespace Sys2Proof.Machine

/-- The invariant of the machine: memory is in its canonical form, and Z and N are never both set (R100). -/
def StateInv (s : State) : Prop := s.mem.wf = true ∧ ¬ (flagZ s.p = true ∧ flagN s.p = true)

/-- The mask of the reserved bits of `P`: all but Z (bit 1) and N (bit 7) (R26). -/
def reservedMask : Byte := 0x7D

/-- `n` steps from `s` all complete: none faults and none is refused. Claims about a program take this as a premise
(R162). -/
def RunsWithoutFault (n : Nat) (s : State) : Prop := ∃ t, Host.Core.run Sys2Proof.core n s = .next t

/-- The bytes of a list stand in memory from `addr` on, at rising addresses modulo 65 536 (R60). -/
def Memory.Holds : Memory → Addr → List Byte → Prop
  | _, _, [] => True
  | m, addr, b :: bs => m.read addr = b ∧ Memory.Holds m (addr + 1) bs

/-- The outcome with its next state changed by `f`; a fault and a refusal stay. -/
def mapNext (f : State → State) : Host.Outcome State Fault Refusal → Host.Outcome State Fault Refusal
  | .next s => .next (f s)
  | .fault e => .fault e
  | .refused r => .refused r

/-- The state a run ended in, where it ended in one. -/
def RunResult.state? : RunResult → Option State
  | .halted s => some s
  | .fault _ s => some s
  | .unfinished s => some s
  | .refused _ => none

end Sys2Proof.Machine
end

