-- ==== Sys2Proof/WellFormed.lean ====
section
/-!
DEFINITION. Which descriptors, and so which instructions, the core has: the mode is one the mnemonic has a row for
(R64), and the length is the mode's (R62). The operand fields need no check: every `Byte` and every `Addr` is a legal
operand (R63), and their types hold nothing else.
-/
namespace Sys2Proof

/-- The modes a mnemonic has a row for (R64): eight for LDA, seven for STA, none but NoneAddressing for the rest. -/
def Mnemonic.modes : Mnemonic → List Mode
  | .lda => [.immediate, .zeroPage, .zeroPageX, .absolute, .absoluteX, .absoluteY, .indirectX, .indirectY]
  | .sta => [.zeroPage, .zeroPageX, .absolute, .absoluteX, .absoluteY, .indirectX, .indirectY]
  | .tax | .inx | .brk => [.noneAddressing]

/-- A descriptor is that of some row: a permitted mode (R64) and the mode's length (R62). -/
def Descriptor.wellFormed (d : Descriptor) : Bool :=
  d.mnemonic.modes.contains d.mode && d.length == d.mode.length

/-- An instruction is well formed if its descriptor is that of a row. -/
def Instr.wellFormed (i : Instr) : Bool := i.descriptor.wellFormed

end Sys2Proof
end

