-- ==== Sys2Proof/Certificates/Slice0/Obligations.lean ====
section
/-!
DEFINITION. The statements for the provers. Each docstring names the rule of spec/ it formalises. A statement about
the machine's step that names no opcode byte holds whatever the table's byte values are; the values themselves are
the spec's decision D2 and stand in OpcodeTableRows.
-/
open Sys2Proof Sys2Proof.Machine

/-! ## Encoding -/

/-- Decoding the bytes of a well-formed instruction, whatever follows them, gives the instruction back with every
operand bit and leaves what follows (30_encoding.md sections 1 and 3). -/
def Obligations.DecodeOfEncodeIsTheInstruction : Prop :=
  ∀ (i : Instr) (rest : List Byte), i.wellFormed = true → decode (encode i ++ rest) = .ok (i, rest)

/-- The other direction: bytes the decoder accepts are the encoding of the well-formed instruction it gives, followed
by what it leaves; so each byte sequence has one meaning. -/
def Obligations.AcceptedBytesAreTheEncoding : Prop :=
  ∀ (bytes : List Byte) (i : Instr) (rest : List Byte),
    decode bytes = .ok (i, rest) → bytes = encode i ++ rest ∧ i.wellFormed = true

/-- The decoder refuses three ways only, each by name: no byte, an opcode with no row, operand bytes missing. -/
def Obligations.DecoderRefusalsAreExactlyThese : Prop :=
  ∀ (bytes : List Byte) (e : DecodeError), decode bytes = .error e →
    (bytes = [] ∧ e = .noBytes) ∨
    (∃ op rest, bytes = op :: rest ∧ decodeOpcode op = none ∧ e = .unrecognizedOpcode op) ∨
    (∃ op rest d, bytes = op :: rest ∧ decodeOpcode op = some d ∧ rest.length < d.mode.operandBytes ∧
      e = .missingOperand op)

/-- The 18 rows of the opcode table and no other byte (R64, R66). The byte values are the spec's own decision D2 (STA's
rows D5, BRK's length D6), taken from general knowledge: log entries 8 and 9. -/
def Obligations.OpcodeTableRows : Prop :=
  decodeOpcode 0xA9 = some ⟨.lda, .immediate, 2⟩ ∧ decodeOpcode 0xA5 = some ⟨.lda, .zeroPage, 2⟩ ∧
  decodeOpcode 0xB5 = some ⟨.lda, .zeroPageX, 2⟩ ∧ decodeOpcode 0xAD = some ⟨.lda, .absolute, 3⟩ ∧
  decodeOpcode 0xBD = some ⟨.lda, .absoluteX, 3⟩ ∧ decodeOpcode 0xB9 = some ⟨.lda, .absoluteY, 3⟩ ∧
  decodeOpcode 0xA1 = some ⟨.lda, .indirectX, 2⟩ ∧ decodeOpcode 0xB1 = some ⟨.lda, .indirectY, 2⟩ ∧
  decodeOpcode 0x85 = some ⟨.sta, .zeroPage, 2⟩ ∧ decodeOpcode 0x95 = some ⟨.sta, .zeroPageX, 2⟩ ∧
  decodeOpcode 0x8D = some ⟨.sta, .absolute, 3⟩ ∧ decodeOpcode 0x9D = some ⟨.sta, .absoluteX, 3⟩ ∧
  decodeOpcode 0x99 = some ⟨.sta, .absoluteY, 3⟩ ∧ decodeOpcode 0x81 = some ⟨.sta, .indirectX, 2⟩ ∧
  decodeOpcode 0x91 = some ⟨.sta, .indirectY, 2⟩ ∧ decodeOpcode 0xAA = some ⟨.tax, .noneAddressing, 1⟩ ∧
  decodeOpcode 0xE8 = some ⟨.inx, .noneAddressing, 1⟩ ∧ decodeOpcode 0x00 = some ⟨.brk, .noneAddressing, 1⟩ ∧
  ∀ b : Byte, decodeOpcode b = none ↔
    b ∉ ([0xA9, 0xA5, 0xB5, 0xAD, 0xBD, 0xB9, 0xA1, 0xB1, 0x85, 0x95, 0x8D, 0x9D, 0x99, 0x81, 0x91, 0xAA, 0xE8,
      0x00] : List Byte)

/-- Words written out from the encodings of R60, R64 and R70's examples decode to what they stand for. The byte values
are the spec's decision D2 (log entry 8). -/
def Obligations.WrittenOutWordsDecode : Prop :=
  decode [0xA9, 0x05] = .ok (.ldaImmediate 0x05, []) ∧
  decode [0xBD, 0xFF, 0x01] = .ok (.ldaAbsoluteX 0x01FF, []) ∧
  decode [0x8D, 0x00, 0x02] = .ok (.staAbsolute 0x0200, []) ∧
  decode [0x91, 0x20, 0xAA] = .ok (.staIndirectY 0x20, [0xAA]) ∧
  decode [0xAA] = .ok (.tax, []) ∧ decode [0xE8] = .ok (.inx, []) ∧ decode [0x00, 0x12] = .ok (.brk, [0x12])

/-! ## Memory -/

/-- R43: `MemWrite` stores the byte at its address and changes nothing else, in every memory. -/
def Obligations.MemWriteChangesOneCell : Prop :=
  ∀ (m : Memory) (addr other : Addr) (v : Byte),
    (m.write addr v).read other = if other = addr then v else m.read other

/-- `ReadWord` is little-endian with the high byte at `addr +16 1` (R44, R46); at 0xFFFF that is 0x0000 by conflict C1
and decision D7. -/
def Obligations.ReadWordIsLittleEndian : Prop :=
  ∀ (m : Memory) (addr : Addr),
    (m.readWord addr).toNat = 256 * (m.read (addr + 1)).toNat + (m.read addr).toNat ∧
    (m.readWord 0xFFFF).toNat = 256 * (m.read 0x0000).toNat + (m.read 0xFFFF).toNat

/-- `WriteWord` then `ReadWord` at the same address gives the word, at 0xFFFF too (R45, decision D7), and every byte
but the two written reads as before. -/
def Obligations.WriteWordThenReadWord : Prop :=
  ∀ (m : Memory) (addr w : Addr),
    (m.writeWord addr w).readWord addr = w ∧
    ∀ other : Addr, other ≠ addr → other ≠ addr + 1 → (m.writeWord addr w).read other = m.read other

/-- The canonical form is canonical: two memories in it that read alike at every address are the same data. -/
def Obligations.CanonicalMemoriesThatReadAlikeAreEqual : Prop :=
  ∀ m m' : Memory, m.wf = true → m'.wf = true → (∀ addr : Addr, m.read addr = m'.read addr) → m = m'

/-! ## The flag-update routine -/

/-- R100: `UpdateZN` sets Z if the result is 0, N from bit 7, passes every other bit through; both are never set. -/
def Obligations.UpdateZNSetsTwoBits : Prop :=
  ∀ r p : Byte,
    flagZ (updateZN r p) = decide (r = 0x00) ∧ flagN (updateZN r p) = r.getLsbD 7 ∧
    (∀ k : Nat, k ≠ 1 → k ≠ 7 → (updateZN r p).getLsbD k = p.getLsbD k) ∧
    ¬ (flagZ (updateZN r p) = true ∧ flagN (updateZN r p) = true)

/-! ## The resolver -/

/-- R91, R92, R93: the zero-page modes, as numbers, for the resolver that reads its operand byte at `PC` and for the
one the handlers use; no row of the table has mode ZeroPage_Y, which is how the spec resolves its conflict C2 (log
entry 9). -/
def Obligations.ResolverZeroPageModes : Prop :=
  (∀ (c : Config) (s : State),
    (∃ ea, Pseudocode.resolve c .zeroPage s = .ok ea ∧
      effectiveAddress c (.zeroPage (s.mem.read s.pc)) s = .ok ea ∧ ea.toNat = (s.mem.read s.pc).toNat) ∧
    (∃ ea, Pseudocode.resolve c .zeroPageX s = .ok ea ∧
      effectiveAddress c (.zeroPageX (s.mem.read s.pc)) s = .ok ea ∧
      ea.toNat = ((s.mem.read s.pc).toNat + s.x.toNat) % 256) ∧
    (∃ ea, Pseudocode.resolve c .zeroPageY s = .ok ea ∧
      effectiveAddress c (.zeroPageY (s.mem.read s.pc)) s = .ok ea ∧
      ea.toNat = ((s.mem.read s.pc).toNat + s.y.toNat) % 256)) ∧
  ∀ (b : Byte) (d : Descriptor), decodeOpcode b = some d → d.mode ≠ .zeroPageY

/-- R94, R95, R96: the absolute modes, as numbers: the word at `PC`, its high byte at `PC +16 1`, plus the index modulo
65 536. -/
def Obligations.ResolverAbsoluteModes : Prop :=
  ∀ (c : Config) (s : State),
    (∃ ea, Pseudocode.resolve c .absolute s = .ok ea ∧
      effectiveAddress c (.absolute (s.mem.readWord s.pc)) s = .ok ea ∧
      ea.toNat = 256 * (s.mem.read (s.pc + 1)).toNat + (s.mem.read s.pc).toNat) ∧
    (∃ ea, Pseudocode.resolve c .absoluteX s = .ok ea ∧
      effectiveAddress c (.absoluteX (s.mem.readWord s.pc)) s = .ok ea ∧
      ea.toNat = (256 * (s.mem.read (s.pc + 1)).toNat + (s.mem.read s.pc).toNat + s.x.toNat) % 65536) ∧
    (∃ ea, Pseudocode.resolve c .absoluteY s = .ok ea ∧
      effectiveAddress c (.absoluteY (s.mem.readWord s.pc)) s = .ok ea ∧
      ea.toNat = (256 * (s.mem.read (s.pc + 1)).toNat + (s.mem.read s.pc).toNat + s.y.toNat) % 65536)

/-- R97: Indirect_X, as numbers: the pointer is the operand byte plus X modulo 256, and the word's high byte is at the
pointer plus 1 modulo 256. -/
def Obligations.ResolverIndirectX : Prop :=
  ∀ (c : Config) (s : State) (ptr ptrHi : Addr),
    ptr.toNat = ((s.mem.read s.pc).toNat + s.x.toNat) % 256 →
    ptrHi.toNat = (ptr.toNat + 1) % 256 →
    ∃ ea, Pseudocode.resolve c .indirectX s = .ok ea ∧
      effectiveAddress c (.indirectX (s.mem.read s.pc)) s = .ok ea ∧
      ea.toNat = 256 * (s.mem.read ptrHi).toNat + (s.mem.read ptr).toNat

/-- R98 with both values of the open parameter (R7): supported, the word at the zero-page pointer plus Y modulo 65 536;
not supported, the fault. The zero-page wrap of the high byte is the spec's choice D4, the parameter its D3 (log
entry 1). -/
def Obligations.ResolverIndirectY : Prop :=
  (∀ (s : State) (ptrHi : Addr), ptrHi.toNat = ((s.mem.read s.pc).toNat + 1) % 256 →
    ∃ ea, Pseudocode.resolve ⟨true⟩ .indirectY s = .ok ea ∧
      effectiveAddress ⟨true⟩ (.indirectY (s.mem.read s.pc)) s = .ok ea ∧
      ea.toNat = (256 * (s.mem.read ptrHi).toNat + (s.mem.read (zext16 (s.mem.read s.pc))).toNat + s.y.toNat) %
        65536) ∧
  (∀ s : State, Pseudocode.resolve ⟨false⟩ .indirectY s = .error (.unsupportedAddressingMode .indirectY) ∧
    effectiveAddress ⟨false⟩ (.indirectY (s.mem.read s.pc)) s = .error (.unsupportedAddressingMode .indirectY)) ∧
  chosenConfig = ⟨true⟩

/-- R90 and R99: Immediate resolves to `PC` itself, whatever memory holds; NoneAddressing always raises, and no row
that calls the resolver (LDA, STA) carries it. -/
def Obligations.ResolverImmediateAndNone : Prop :=
  (∀ (c : Config) (s : State) (b1 : Byte),
    Pseudocode.resolve c .immediate s = .ok s.pc ∧ effectiveAddress c (.immediate b1) s = .ok s.pc) ∧
  (∀ (c : Config) (s : State),
    Pseudocode.resolve c .noneAddressing s = .error (.unsupportedAddressingMode .noneAddressing) ∧
    effectiveAddress c .noneAddressing s = .error (.unsupportedAddressingMode .noneAddressing)) ∧
  ∀ (b : Byte) (d : Descriptor), decodeOpcode b = some d → d.mode = .noneAddressing →
    d.mnemonic ≠ .lda ∧ d.mnemonic ≠ .sta

/-- The resolver of the handlers, on the operand bytes of the instruction decoded at `PC`, gives what the spec's
resolver gives reading them at `PC` after the fetch (R63, R89); both depend on PC, X, Y and memory only. -/
def Obligations.ResolversAgreeOnTheFetchedInstruction : Prop :=
  (∀ (c : Config) (s : State) (i : Instr) (rest : List Byte), decode s.fetchWindow = .ok (i, rest) →
    effectiveAddress c i.operand s.fetched = Pseudocode.resolve c i.mode s.fetched) ∧
  ∀ (c : Config) (m : Mode) (s : State) (a p : Byte) (r : RunState),
    Pseudocode.resolve c m { s with a := a, p := p, run := r } = Pseudocode.resolve c m s

/-! ## Instructions, as steps of the machine -/

/-- R110, for every LDA row and both values of the open parameter: one byte at the effective address into A, Z and N
from it, PC past the instruction, nothing else changed; the only exception is the unsupported Indirect_Y. -/
def Obligations.LoadStepReadsEffectiveAddressIntoA : Prop :=
  (∀ (c : Config) (s : State) (d : Descriptor), s.run = .running → decodeOpcode (s.mem.read s.pc) = some d →
    d.mnemonic = .lda →
    (∀ ea, Pseudocode.resolve c d.mode s.fetched = .ok ea →
      stepWith c s = .next { s with
        a := s.mem.read ea
        p := updateZN (s.mem.read ea) s.p
        pc := s.pc + BitVec.ofNat 16 d.length }) ∧
    (∀ f, Pseudocode.resolve c d.mode s.fetched = .error f →
      d.mode = .indirectY ∧ c.indirectYSupported = false ∧ f = .unsupportedAddressingMode .indirectY ∧
      stepWith c s = .fault f)) ∧
  (opcodeTable.filter fun row => row.2.mnemonic == .lda).length = 8

/-- R120, for every STA row and both values of the open parameter: A to the byte at the effective address, no flag and
no register changed but PC past the instruction; the only exception is the unsupported Indirect_Y, before the write.
STA has seven rows and no Immediate form. -/
def Obligations.StoreStepWritesAToEffectiveAddress : Prop :=
  (∀ (c : Config) (s : State) (d : Descriptor), s.run = .running → decodeOpcode (s.mem.read s.pc) = some d →
    d.mnemonic = .sta →
    d.mode ≠ .immediate ∧
    (∀ ea, Pseudocode.resolve c d.mode s.fetched = .ok ea →
      stepWith c s = .next { s with
        mem := s.mem.write ea s.a
        pc := s.pc + BitVec.ofNat 16 d.length } ∧
      ∀ addr, (s.mem.write ea s.a).read addr = if addr = ea then s.a else s.mem.read addr) ∧
    (∀ f, Pseudocode.resolve c d.mode s.fetched = .error f →
      d.mode = .indirectY ∧ c.indirectYSupported = false ∧ f = .unsupportedAddressingMode .indirectY ∧
      stepWith c s = .fault f)) ∧
  (opcodeTable.filter fun row => row.2.mnemonic == .sta).length = 7 ∧ decodeOpcode 0x89 = none

/-- TAX, INX and BRK as steps (42_transfer_increment.md, 43_break.md): TAX copies A to X and INX adds 1 to X modulo 256,
each with Z and N from the new X; BRK halts with PC past its one byte (decision D6) and changes nothing else. -/
def Obligations.TransferIncrementBreakSteps : Prop :=
  ∀ (c : Config) (s : State) (d : Descriptor), s.run = .running → decodeOpcode (s.mem.read s.pc) = some d →
    (d.mnemonic = .tax →
      stepWith c s = .next { s with x := s.a, p := updateZN s.a s.p, pc := s.pc + 1 }) ∧
    (d.mnemonic = .inx →
      ∃ x' : Byte, x'.toNat = (s.x.toNat + 1) % 256 ∧
        stepWith c s = .next { s with x := x', p := updateZN x' s.p, pc := s.pc + 1 }) ∧
    (d.mnemonic = .brk →
      stepWith c s = .next { s with run := .halted, pc := s.pc + 1 })

/-! ## Instructions, as meanings: each completes, and its frame -/

/-- Every LDA form completes, in every state, with this next state (R111 to R118 under the operand bytes the
instruction carries: log entry 5; Indirect_Y with the chosen parameter: log entry 1, and with its pointer's high byte
wrapping in the zero page, the spec's choice D4: log entry 11). -/
def Obligations.LoadMeaningsComplete : Prop :=
  ∀ (s : State) (b1 : Byte) (w : Addr),
    exec (.ldaImmediate b1) s = .next { s with a := b1, p := updateZN b1 s.p } ∧
    exec (.ldaZeroPage b1) s = .next { s with
      a := s.mem.read (b1.setWidth 16), p := updateZN (s.mem.read (b1.setWidth 16)) s.p } ∧
    exec (.ldaZeroPageX b1) s = .next { s with
      a := s.mem.read ((b1 + s.x).setWidth 16), p := updateZN (s.mem.read ((b1 + s.x).setWidth 16)) s.p } ∧
    exec (.ldaAbsolute w) s = .next { s with a := s.mem.read w, p := updateZN (s.mem.read w) s.p } ∧
    exec (.ldaAbsoluteX w) s = .next { s with
      a := s.mem.read (w + s.x.setWidth 16), p := updateZN (s.mem.read (w + s.x.setWidth 16)) s.p } ∧
    exec (.ldaAbsoluteY w) s = .next { s with
      a := s.mem.read (w + s.y.setWidth 16), p := updateZN (s.mem.read (w + s.y.setWidth 16)) s.p } ∧
    (∀ ea : Addr,
      ea = s.mem.read ((b1 + s.x + 1).setWidth 16) ++ s.mem.read ((b1 + s.x).setWidth 16) →
      exec (.ldaIndirectX b1) s = .next { s with a := s.mem.read ea, p := updateZN (s.mem.read ea) s.p }) ∧
    (∀ ea : Addr,
      ea = (s.mem.read ((b1 + 1).setWidth 16) ++ s.mem.read (b1.setWidth 16)) + s.y.setWidth 16 →
      exec (.ldaIndirectY b1) s = .next { s with a := s.mem.read ea, p := updateZN (s.mem.read ea) s.p })

/-- Every STA form completes, in every state, with this next state (R121 to R127 under the operand bytes the
instruction carries: log entry 5; Indirect_Y with the chosen parameter: log entry 1, and with its pointer's high byte
wrapping in the zero page, the spec's choice D4: log entry 11). -/
def Obligations.StoreMeaningsComplete : Prop :=
  ∀ (s : State) (b1 : Byte) (w : Addr),
    exec (.staZeroPage b1) s = .next { s with mem := s.mem.write (b1.setWidth 16) s.a } ∧
    exec (.staZeroPageX b1) s = .next { s with mem := s.mem.write ((b1 + s.x).setWidth 16) s.a } ∧
    exec (.staAbsolute w) s = .next { s with mem := s.mem.write w s.a } ∧
    exec (.staAbsoluteX w) s = .next { s with mem := s.mem.write (w + s.x.setWidth 16) s.a } ∧
    exec (.staAbsoluteY w) s = .next { s with mem := s.mem.write (w + s.y.setWidth 16) s.a } ∧
    (∀ ea : Addr,
      ea = s.mem.read ((b1 + s.x + 1).setWidth 16) ++ s.mem.read ((b1 + s.x).setWidth 16) →
      exec (.staIndirectX b1) s = .next { s with mem := s.mem.write ea s.a }) ∧
    (∀ ea : Addr,
      ea = (s.mem.read ((b1 + 1).setWidth 16) ++ s.mem.read (b1.setWidth 16)) + s.y.setWidth 16 →
      exec (.staIndirectY b1) s = .next { s with mem := s.mem.write ea s.a })

/-- TAX, INX and BRK complete, in every state, with this next state (42_transfer_increment.md, 43_break.md). -/
def Obligations.RegisterMeaningsComplete : Prop :=
  ∀ s : State,
    exec .tax s = .next { s with x := s.a, p := updateZN s.a s.p } ∧
    exec .inx s = .next { s with x := s.x + 1, p := updateZN (s.x + 1) s.p } ∧
    exec .brk s = .next { s with run := .halted }

/-- The frame of the eight LDA forms: X, Y, PC, the run state, the reserved bits of P and every byte of memory stay. -/
def Obligations.LoadFrame : Prop :=
  ∀ (i : Instr) (s t : State), i.mnemonic = .lda → exec i s = .next t →
    t.x = s.x ∧ t.y = s.y ∧ t.pc = s.pc ∧ t.run = s.run ∧
    (∀ k : Nat, k ≠ 1 → k ≠ 7 → t.p.getLsbD k = s.p.getLsbD k) ∧
    ∀ addr : Addr, t.mem.read addr = s.mem.read addr

/-- The frame of the seven STA forms: every register, all of P and the run state stay; the byte at the effective
address is A, every other byte stays. The parameter is the chosen one (log entry 1). -/
def Obligations.StoreFrame : Prop :=
  ∀ (i : Instr) (s t : State), i.mnemonic = .sta → exec i s = .next t →
    t.a = s.a ∧ t.x = s.x ∧ t.y = s.y ∧ t.p = s.p ∧ t.pc = s.pc ∧ t.run = s.run ∧
    ∀ ea : Addr, effectiveAddress chosenConfig i.operand s = .ok ea →
      t.mem.read ea = s.a ∧ ∀ addr : Addr, addr ≠ ea → t.mem.read addr = s.mem.read addr

/-- The frames of TAX and INX (A, Y, PC, the run state, the reserved bits of P and every byte of memory stay) and of BRK
(everything but the run state stays: it pushes nothing and sets no flag, R151). -/
def Obligations.TransferIncrementBreakFrame : Prop :=
  (∀ (i : Instr) (s t : State), (i = .tax ∨ i = .inx) → exec i s = .next t →
    t.a = s.a ∧ t.y = s.y ∧ t.pc = s.pc ∧ t.run = s.run ∧
    (∀ k : Nat, k ≠ 1 → k ≠ 7 → t.p.getLsbD k = s.p.getLsbD k) ∧
    ∀ addr : Addr, t.mem.read addr = s.mem.read addr) ∧
  ∀ s t : State, exec .brk s = .next t →
    t.a = s.a ∧ t.x = s.x ∧ t.y = s.y ∧ t.p = s.p ∧ t.pc = s.pc ∧
    ∀ addr : Addr, t.mem.read addr = s.mem.read addr

/-- What a register cannot touch (R21's read columns): A matters to STA and TAX only; X to the X modes, INX only; Y to
the Y modes only. Where it does not matter, changing it changes nothing but itself, and a written one not even that. -/
def Obligations.UnreadRegistersDoNotMatter : Prop :=
  ∀ (i : Instr) (s : State) (v : Byte),
    (i.mnemonic = .lda → exec i { s with a := v } = exec i s) ∧
    (i = .inx ∨ i = .brk → exec i { s with a := v } = mapNext (fun t => { t with a := v }) (exec i s)) ∧
    (i = .tax → exec i { s with x := v } = exec i s) ∧
    (i ≠ .tax → i ≠ .inx → i.mode ≠ .zeroPageX → i.mode ≠ .absoluteX → i.mode ≠ .indirectX →
      exec i { s with x := v } = mapNext (fun t => { t with x := v }) (exec i s)) ∧
    (i.mode ≠ .absoluteY → i.mode ≠ .indirectY →
      exec i { s with y := v } = mapNext (fun t => { t with y := v }) (exec i s))

/-! ## The sequencer -/

/-- A step runs the decoded instruction: `exec` on the state whose PC is past the opcode byte, then, if that did not
halt, the fix-up past the operand bytes where PC is still there (R80 to R85); a fault ends it. -/
def Obligations.StepRunsDecodedInstruction : Prop :=
  ∀ (s : State) (i : Instr) (rest : List Byte), s.run = .running → decode s.fetchWindow = .ok (i, rest) →
    i.wellFormed = true →
    step s = match exec i { s with pc := s.pc + 1 } with
      | .next t => .next (if t.run = .halted then t
          else if t.pc = s.pc + 1 then { t with pc := t.pc + BitVec.ofNat 16 (i.length - 1) } else t)
      | .fault f => .fault f
      | .refused r => .refused r

/-- Where the bytes of an instruction stand at PC, wrapping past 0xFFFF, a running core's step runs that instruction,
whatever follows it (R60, R68, R24). -/
def Obligations.StepRunsTheBytesAtPC : Prop :=
  ∀ (s : State) (i : Instr), s.run = .running → s.mem.Holds s.pc (encode i) →
    step s = finish (s.pc + 1) i.length (exec i { s with pc := s.pc + 1 })

/-- R80: a running core's step is exactly the spec's pseudocode, which decodes the opcode byte only and lets the
resolver read the operand bytes at PC; for both values of the open parameter. That `step` has the value true is the
spec's choice D3 (log entry 1). -/
def Obligations.StepIsTheSpecsPseudocode : Prop :=
  (∀ (c : Config) (s : State), s.run = .running → stepWith c s = Pseudocode.step c s) ∧
  ∀ s : State, s.run = .running → step s = Pseudocode.step chosenConfig s

/-- After an instruction PC is the fetch address plus the instruction's length modulo 65 536 (R24, R86): control is
sequential; BRK's halt leaves the fetch address plus 1 (decision D6). -/
def Obligations.NextPcFollowsTheInstruction : Prop :=
  ∀ s t : State, s.run = .running → step s = .next t →
    ∃ i rest, decode s.fetchWindow = .ok (i, rest) ∧ t.pc.toNat = (s.pc.toNat + i.length) % 65536 ∧
      (t.run = .running ∨ (i = .brk ∧ t.run = .halted))

/-- The fix-up's test is the literal equality of PC with its value before dispatch (R85, decision D25), for any handler
put in the sequencer: a handler that moved PC is exempt. -/
def Obligations.FixUpTestsLiteralEquality : Prop :=
  ∀ (handler : Instr → State → Host.Outcome State Fault Refusal) (s u : State) (i : Instr) (rest : List Byte),
    s.run = .running → decode s.fetchWindow = .ok (i, rest) →
    handler i { s with pc := s.pc + 1 } = .next u → u.run = .running →
    (u.pc = s.pc + 1 → sequencerStep handler s = .next { u with pc := s.pc + BitVec.ofNat 16 i.length }) ∧
    (u.pc ≠ s.pc + 1 → sequencerStep handler s = .next u)

/-! ## Faults -/

/-- R160: a byte with no row raises UnrecognizedOpcode, kind 1, with the byte fetched and the address it was fetched
from. The number of the kind is the spec's own, decision D24 (log entry 22). -/
def Obligations.UnrecognizedOpcodeFaults : Prop :=
  ∀ (c : Config) (s : State), s.run = .running → decodeOpcode (s.mem.read s.pc) = none →
    stepWith c s = .fault (.unrecognizedOpcode (s.mem.read s.pc) s.pc) ∧
    step s = .fault (.unrecognizedOpcode (s.mem.read s.pc) s.pc) ∧
    Fault.kindCode (.unrecognizedOpcode (s.mem.read s.pc) s.pc) = 1

/-- R164: a step of a running core faults exactly where the byte has no row, or the row's mode is Indirect_Y and the
parameter says it is not supported; no other condition faults. -/
def Obligations.NoOtherConditionFaults : Prop :=
  ∀ (c : Config) (s : State) (f : Fault), s.run = .running →
    (stepWith c s = .fault f ↔
      (decodeOpcode (s.mem.read s.pc) = none ∧ f = .unrecognizedOpcode (s.mem.read s.pc) s.pc) ∨
      (∃ d, decodeOpcode (s.mem.read s.pc) = some d ∧ d.mode = .indirectY ∧ c.indirectYSupported = false ∧
        f = .unsupportedAddressingMode .indirectY))

/-- With the parameter false, both Indirect_Y instructions raise UnsupportedAddressingMode(Indirect_Y), kind 2, before
any effect (R161, decision D3, log entry 1); the number of the kind is the spec's own, decision D24 (log entry 22). -/
def Obligations.UnsupportedIndirectYFaults : Prop :=
  ∀ (c : Config) (b1 : Byte) (s : State), c.indirectYSupported = false →
    execute c (.ldaIndirectY b1) s = .fault (.unsupportedAddressingMode .indirectY) ∧
    execute c (.staIndirectY b1) s = .fault (.unsupportedAddressingMode .indirectY) ∧
    Fault.kindCode (.unsupportedAddressingMode .indirectY) = 2

/-- A fault is precise (R162, decision D12, log entry 4): the run, with fuel left (log entry 16), ends there with that
fault, and of the state before the faulting step only PC (advanced by the fetch) and the run state, now Faulted, have
changed. -/
def Obligations.FaultIsPrecise : Prop :=
  ∀ (c : Config) (n : Nat) (s : State) (f : Fault), s.run = .running → stepWith c s = .fault f →
    runBy (stepWith c) (n + 1) s = .fault f { s with pc := s.pc + 1, run := .faulted f }

/-- No step and no meaning is refused: every instruction of the table is modelled. -/
def Obligations.NothingIsRefused : Prop :=
  (∀ (i : Instr) (s : State) (r : Refusal), exec i s ≠ .refused r) ∧
  ∀ (c : Config) (s : State) (r : Refusal), stepWith c s ≠ .refused r ∧ step s ≠ .refused r

/-! ## Invariants -/

/-- Every step keeps the invariant: memory in canonical form (the model's own, log entry 2), Z and N never both set
(R100). -/
def Obligations.StepKeepsInvariant : Prop :=
  ∀ s t : State, StateInv s → step s = .next t → StateInv t

/-- The invariant holds at reset: the canonical form is the model's own (log entry 2), Z and N are 0. -/
def Obligations.ResetMeetsInvariant : Prop := StateInv State.reset

/-- Every host transaction keeps the invariant: load, reset, write, and a run, however it ends. The canonical form is
the model's own (log entry 2), as are a run's fuel (log entry 16) and the state a fault leaves it with (log entry 4). -/
def Obligations.TransactionsKeepInvariant : Prop :=
  ∀ (s : State), StateInv s →
    (∀ image t, hostLoad image s = .next t → StateInv t) ∧
    (∀ t, hostReset s = .next t → StateInv t) ∧
    (∀ addr v t, hostWrite addr v s = .next t → StateInv t) ∧
    (∀ fuel t, (hostRun fuel s).state? = some t → StateInv t) ∧
    (∀ fuel image t, (hostLoadAndRun fuel image s).state? = some t → StateInv t)

/-- The reserved bits of P (all but Z and N) are changed by no step; reset zeroes the whole byte (R26, decision D14). -/
def Obligations.ReservedStatusBitsPreserved : Prop :=
  (∀ (s t : State) (k : Nat), step s = .next t → k ≠ 1 → k ≠ 7 → t.p.getLsbD k = s.p.getLsbD k) ∧
  ∀ s t : State, hostReset s = .next t → t.p = 0

/-- Y is written by no step, so it is 0 in every state that any number of steps reaches from a reset, over any memory
(R22). -/
def Obligations.YStaysZeroFromReset : Prop :=
  (∀ s t : State, step s = .next t → t.y = s.y) ∧
  ∀ (s s0 t : State) (n : Nat), hostReset s = .next s0 → Host.Core.run Sys2Proof.core n s0 = .next t → t.y = 0

/-- R27: Z and N are written by LDA, TAX and INX only, from their 8-bit result; STA and BRK leave all of P; both are 0
after reset; and no instruction reads P: with another P a step does the same but to P. -/
def Obligations.FlagsFollowTheLatestResult : Prop :=
  (∀ (s t : State) (d : Descriptor), s.run = .running → decodeOpcode (s.mem.read s.pc) = some d → step s = .next t →
    (d.mnemonic = .lda → flagZ t.p = decide (t.a = 0) ∧ flagN t.p = t.a.getLsbD 7) ∧
    (d.mnemonic = .tax ∨ d.mnemonic = .inx → flagZ t.p = decide (t.x = 0) ∧ flagN t.p = t.x.getLsbD 7) ∧
    (d.mnemonic = .sta ∨ d.mnemonic = .brk → t.p = s.p)) ∧
  (∀ s t : State, hostReset s = .next t → flagZ t.p = false ∧ flagN t.p = false) ∧
  ∀ (s t : State) (q : Byte), step s = .next t →
    ∃ t', step { s with p := q } = .next t' ∧ { t' with p := t.p } = t

/-! ## The bus -/

/-- The accesses of a step (R53, R54) are all that passes between it and memory: two memories that agree on the bytes it
reads give the same accesses, the same fault or the same registers; and memory changes exactly at the byte it writes.
The list of accesses is the spec's decision D18 (log entry 20); that no address does more is its D19 (log entry 23). -/
def Obligations.StepTouchesOnlyItsAccesses : Prop :=
  ∀ (c : Config) (s : State) (m : Memory),
    (∀ addr, Access.read addr ∈ stepAccesses c s → m.read addr = s.mem.read addr) →
    stepAccesses c { s with mem := m } = stepAccesses c s ∧
    (∀ f, stepWith c s = .fault f → stepWith c { s with mem := m } = .fault f) ∧
    ∀ t, stepWith c s = .next t →
      (∃ t', stepWith c { s with mem := m } = .next t' ∧ { t' with mem := t.mem } = t) ∧
      (∀ addr v, Access.write addr v ∈ stepAccesses c s → t.mem.read addr = v) ∧
      ∀ addr, (∀ v, Access.write addr v ∉ stepAccesses c s) → t.mem.read addr = s.mem.read addr

/-- A step's accesses, each with its address, in order (R53, R54; the order is the spec's decision D18, log entry 20):
the opcode fetch; the resolver's operand reads at PC +16 1 and PC +16 2, rising; its pointer reads, low byte then high
byte, wrapping in the zero page (for Indirect_Y the spec's choice D4, log entry 11); then one data access at the
effective address the spec's resolver gives, a read for LDA, a write of A for STA. TAX, INX, BRK and a byte with no row
make the fetch only, so does the unsupported Indirect_Y (log entry 1); a core that is not Running makes none. -/
def Obligations.StepAccessesCountAndOrder : Prop :=
  (∀ (c : Config) (s : State) (d : Descriptor), s.run = .running → decodeOpcode (s.mem.read s.pc) = some d →
    (d.mnemonic = .lda ∨ d.mnemonic = .sta → ∀ ea, Pseudocode.resolve c d.mode s.fetched = .ok ea →
      ∃ operands pointers data, stepAccesses c s = .read s.pc :: (operands ++ pointers ++ [data]) ∧
        operands.length = (if d.mode = .immediate then 0 else d.mode.operandBytes) ∧
        pointers.length = (if d.mode = .indirectX ∨ d.mode = .indirectY then 2 else 0) ∧
        (operands.length = 1 → operands = [.read (s.pc + 1)]) ∧
        (operands.length = 2 → operands = [.read (s.pc + 1), .read (s.pc + 2)]) ∧
        (∀ ptr : Byte, d.mode = .indirectX → ptr = s.mem.read (s.pc + 1) + s.x →
          pointers = [.read (ptr.setWidth 16), .read ((ptr + 1).setWidth 16)]) ∧
        (∀ ptr : Byte, d.mode = .indirectY → ptr = s.mem.read (s.pc + 1) →
          pointers = [.read (ptr.setWidth 16), .read ((ptr + 1).setWidth 16)]) ∧
        (d.mnemonic = .lda → data = .read ea) ∧ (d.mnemonic = .sta → data = .write ea s.a)) ∧
    (∀ f, d.mnemonic = .lda ∨ d.mnemonic = .sta → Pseudocode.resolve c d.mode s.fetched = .error f →
      d.mode = .indirectY ∧ c.indirectYSupported = false ∧ stepAccesses c s = [.read s.pc]) ∧
    (d.mnemonic ≠ .lda → d.mnemonic ≠ .sta → stepAccesses c s = [.read s.pc])) ∧
  (∀ (c : Config) (s : State), s.run = .running → decodeOpcode (s.mem.read s.pc) = none →
    stepAccesses c s = [.read s.pc]) ∧
  ∀ (c : Config) (s : State), s.run ≠ .running → stepAccesses c s = []

/-- A store is seen by the next fetch with no delay, and STA's write follows its own instruction's reads (R54, R58): the
next opcode byte is A if the store hit it. The order is the spec's decision D18 (log entry 20); STA Indirect_Y is
resolved with the chosen parameter (log entry 1). -/
def Obligations.StoreIsSeenByTheNextFetch : Prop :=
  ∀ (s : State) (i : Instr) (rest : List Byte) (ea : Addr), s.run = .running →
    decode s.fetchWindow = .ok (i, rest) → i.mnemonic = .sta →
    effectiveAddress chosenConfig i.operand { s with pc := s.pc + 1 } = .ok ea →
    ∃ t, step s = .next t ∧ t.pc = s.pc + BitVec.ofNat 16 i.length ∧
      t.fetchWindow = [t.pc, t.pc + 1, t.pc + 2].map fun addr => if addr = ea then s.a else s.mem.read addr

/-! ## Host transactions -/

/-- Reset as the spec's table gives it: `construct` then `reset` is State.reset, with every register 0, PC the vector of
an all-zero memory, Running, and every byte 0x00 (R33, R180; decisions D9 and D10, log entry 2). -/
def Obligations.ResetStateIsTheSpecs : Prop :=
  hostReset construct = .next State.reset ∧
  State.reset.a = 0 ∧ State.reset.x = 0 ∧ State.reset.y = 0 ∧ State.reset.p = 0 ∧
  State.reset.pc = State.reset.mem.readWord 0xFFFC ∧ State.reset.run = .running ∧
  ∀ addr : Addr, State.reset.mem.read addr = 0x00 ∧ construct.mem.read addr = 0x00

/-- Resetting twice gives both times registers and flags 0 and PC from the vector as it stands in memory, which reset
does not change (R184; that memory stays and the vector is read then is the spec's decision D9, log entry 14). -/
def Obligations.ResetIsIdempotent : Prop :=
  ∀ s s1 : State, hostReset s = .next s1 →
    s1.a = 0 ∧ s1.x = 0 ∧ s1.y = 0 ∧ s1.p = 0 ∧ s1.pc = s.mem.readWord 0xFFFC ∧ s1.run = .running ∧
    s1.mem = s.mem ∧ hostReset s1 = .next s1

/-- `load` (R181, R182): the image at 0x8000 on, then 0x8000 at the reset vector, which wins over image bytes there
(conflict C11); no register, flag, run state or other byte changes; a longer image is refused (decision D13). -/
def Obligations.LoadPlacesImageAndVector : Prop :=
  ∀ (s : State) (image : List Byte), (∀ f, s.run ≠ .faulted f) →
    (image.length ≤ 0x8000 → ∃ t, hostLoad image s = .next t ∧
      t.a = s.a ∧ t.x = s.x ∧ t.y = s.y ∧ t.p = s.p ∧ t.pc = s.pc ∧ t.run = s.run ∧
      ∀ addr : Addr, t.mem.read addr =
        if addr = 0xFFFC then 0x00
        else if addr = 0xFFFD then 0x80
        else if 0x8000 ≤ addr.toNat ∧ addr.toNat < 0x8000 + image.length then image.getD (addr.toNat - 0x8000) 0x00
        else s.mem.read addr) ∧
    (0x8000 < image.length → hostLoad image s = .refused (.imageTooLong image.length))

/-- `load_and_run` is load, then reset, then run (R187). On a core that has not faulted: an image of at most 0x8000
bytes is accepted, the run starts at 0x8000, the vector `load` left, which `reset` reads (decision D9, log entry 14);
a longer image is refused by `load`, and nothing is reset or run (R181; the refusal is the spec's decision D13, log
entry 15). Whatever `load` answers that is no next state, `load_and_run` answers. -/
def Obligations.LoadAndRunIsLoadResetRun : Prop :=
  ∀ (fuel : Nat) (image : List Byte) (s : State),
    (∀ s1 s2, hostLoad image s = .next s1 → hostReset s1 = .next s2 →
      hostLoadAndRun fuel image s = hostRun fuel s2 ∧ s2.pc = 0x8000) ∧
    (∀ r, hostLoad image s = .refused r → hostLoadAndRun fuel image s = .refused r) ∧
    ((∀ f, s.run ≠ .faulted f) →
      (image.length ≤ 0x8000 → ∃ s1 s2, hostLoad image s = .next s1 ∧ hostReset s1 = .next s2) ∧
      (0x8000 < image.length → hostLoadAndRun fuel image s = .refused (.imageTooLong image.length)))

/-- A run's end does not depend on the fuel once it has ended, and running out of fuel is never read as a halt (R185,
R186, decision D21): a halted result is Halted, an unfinished one Running, a fault Faulted. -/
def Obligations.RunResultDoesNotDependOnFuel : Prop :=
  ∀ (n : Nat) (s t : State),
    (hostRun n s = .halted t → t.run = .halted ∧ ∀ k, hostRun (n + k) s = .halted t) ∧
    (∀ f, hostRun n s = .fault f t → t.run = .faulted f ∧ ∀ k, hostRun (n + k) s = .fault f t) ∧
    (hostRun n s = .unfinished t → t.run = .running ∧ ∀ k, hostRun (n + k) s = hostRun k t)

/-- `write` then `read` (R52): the byte written is read, every other byte is as before, and the registers stay.
That the host observes them with `regs` is the spec's addition (conflict C5, decision D26, log entry 15). -/
def Obligations.HostWriteThenRead : Prop :=
  ∀ (s : State) (addr : Addr) (v : Byte), (∀ f, s.run ≠ .faulted f) →
    ∃ t, hostWrite addr v s = .next t ∧ hostRegs t = hostRegs s ∧
      hostRegs s = .ok ⟨s.a, s.x, s.y, s.p, s.pc, s.run⟩ ∧
      ∀ other : Addr, hostRead other t = .ok (if other = addr then v else s.mem.read other)

/-- While halted, no step executes and no state changes; a run returns Halted at once; reset re-enters Running (R152,
R188, decision D11). That `step` answers the same state is the model's convention (log entry 3). -/
def Obligations.HaltedCoreOnlyAnswersTheHost : Prop :=
  ∀ (s : State) (n : Nat), s.run = .halted →
    step s = .next s ∧ hostRun n s = .halted s ∧ hostReset s = .next s.afterReset ∧
    s.afterReset.run = .running ∧ (∀ addr, hostRead addr s = .ok (s.mem.read addr))

/-- After a fatal error every transaction is refused and nothing is stepped (R188, decision D12). That `step` answers
the same fault again is the model's convention (log entry 4). -/
def Obligations.FaultedCoreRefusesEveryTransaction : Prop :=
  ∀ (s : State) (f : Fault) (n : Nat) (image : List Byte) (addr : Addr) (v : Byte), s.run = .faulted f →
    hostLoad image s = .refused .afterFault ∧ hostReset s = .refused .afterFault ∧
    hostWrite addr v s = .refused .afterFault ∧ hostRead addr s = .error .afterFault ∧
    hostRegs s = .error .afterFault ∧ hostRun n s = .refused .afterFault ∧
    hostLoadAndRun n image s = .refused .afterFault ∧ step s = .fault f
end

