-- ==== Sys2Proof/Laws/State.lean ====
section
/-!
SUPPORT. One lemma per field per update of the state: what each named write leaves in each field.
-/
namespace Sys2Proof.Machine

section
variable (s : State)

@[simp] theorem State.setA_a (v : Byte) : (s.setA v).a = v := rfl
@[simp] theorem State.setA_x (v : Byte) : (s.setA v).x = s.x := rfl
@[simp] theorem State.setA_y (v : Byte) : (s.setA v).y = s.y := rfl
@[simp] theorem State.setA_p (v : Byte) : (s.setA v).p = s.p := rfl
@[simp] theorem State.setA_pc (v : Byte) : (s.setA v).pc = s.pc := rfl
@[simp] theorem State.setA_run (v : Byte) : (s.setA v).run = s.run := rfl
@[simp] theorem State.setA_mem (v : Byte) : (s.setA v).mem = s.mem := rfl

@[simp] theorem State.setX_a (v : Byte) : (s.setX v).a = s.a := rfl
@[simp] theorem State.setX_x (v : Byte) : (s.setX v).x = v := rfl
@[simp] theorem State.setX_y (v : Byte) : (s.setX v).y = s.y := rfl
@[simp] theorem State.setX_p (v : Byte) : (s.setX v).p = s.p := rfl
@[simp] theorem State.setX_pc (v : Byte) : (s.setX v).pc = s.pc := rfl
@[simp] theorem State.setX_run (v : Byte) : (s.setX v).run = s.run := rfl
@[simp] theorem State.setX_mem (v : Byte) : (s.setX v).mem = s.mem := rfl

@[simp] theorem State.setP_a (v : Byte) : (s.setP v).a = s.a := rfl
@[simp] theorem State.setP_x (v : Byte) : (s.setP v).x = s.x := rfl
@[simp] theorem State.setP_y (v : Byte) : (s.setP v).y = s.y := rfl
@[simp] theorem State.setP_p (v : Byte) : (s.setP v).p = v := rfl
@[simp] theorem State.setP_pc (v : Byte) : (s.setP v).pc = s.pc := rfl
@[simp] theorem State.setP_run (v : Byte) : (s.setP v).run = s.run := rfl
@[simp] theorem State.setP_mem (v : Byte) : (s.setP v).mem = s.mem := rfl

@[simp] theorem State.setPC_a (v : Addr) : (s.setPC v).a = s.a := rfl
@[simp] theorem State.setPC_x (v : Addr) : (s.setPC v).x = s.x := rfl
@[simp] theorem State.setPC_y (v : Addr) : (s.setPC v).y = s.y := rfl
@[simp] theorem State.setPC_p (v : Addr) : (s.setPC v).p = s.p := rfl
@[simp] theorem State.setPC_pc (v : Addr) : (s.setPC v).pc = v := rfl
@[simp] theorem State.setPC_run (v : Addr) : (s.setPC v).run = s.run := rfl
@[simp] theorem State.setPC_mem (v : Addr) : (s.setPC v).mem = s.mem := rfl

@[simp] theorem State.setRun_a (v : RunState) : (s.setRun v).a = s.a := rfl
@[simp] theorem State.setRun_x (v : RunState) : (s.setRun v).x = s.x := rfl
@[simp] theorem State.setRun_y (v : RunState) : (s.setRun v).y = s.y := rfl
@[simp] theorem State.setRun_p (v : RunState) : (s.setRun v).p = s.p := rfl
@[simp] theorem State.setRun_pc (v : RunState) : (s.setRun v).pc = s.pc := rfl
@[simp] theorem State.setRun_run (v : RunState) : (s.setRun v).run = v := rfl
@[simp] theorem State.setRun_mem (v : RunState) : (s.setRun v).mem = s.mem := rfl

@[simp] theorem State.setMem_a (v : Memory) : (s.setMem v).a = s.a := rfl
@[simp] theorem State.setMem_x (v : Memory) : (s.setMem v).x = s.x := rfl
@[simp] theorem State.setMem_y (v : Memory) : (s.setMem v).y = s.y := rfl
@[simp] theorem State.setMem_p (v : Memory) : (s.setMem v).p = s.p := rfl
@[simp] theorem State.setMem_pc (v : Memory) : (s.setMem v).pc = s.pc := rfl
@[simp] theorem State.setMem_run (v : Memory) : (s.setMem v).run = s.run := rfl
@[simp] theorem State.setMem_mem (v : Memory) : (s.setMem v).mem = v := rfl

@[simp] theorem State.store_a (addr : Addr) (v : Byte) : (s.store addr v).a = s.a := rfl
@[simp] theorem State.store_x (addr : Addr) (v : Byte) : (s.store addr v).x = s.x := rfl
@[simp] theorem State.store_y (addr : Addr) (v : Byte) : (s.store addr v).y = s.y := rfl
@[simp] theorem State.store_p (addr : Addr) (v : Byte) : (s.store addr v).p = s.p := rfl
@[simp] theorem State.store_pc (addr : Addr) (v : Byte) : (s.store addr v).pc = s.pc := rfl
@[simp] theorem State.store_run (addr : Addr) (v : Byte) : (s.store addr v).run = s.run := rfl
@[simp] theorem State.store_mem (addr : Addr) (v : Byte) : (s.store addr v).mem = s.mem.write addr v := rfl

@[simp] theorem State.fetched_a : s.fetched.a = s.a := rfl
@[simp] theorem State.fetched_x : s.fetched.x = s.x := rfl
@[simp] theorem State.fetched_y : s.fetched.y = s.y := rfl
@[simp] theorem State.fetched_p : s.fetched.p = s.p := rfl
@[simp] theorem State.fetched_pc : s.fetched.pc = s.pc + 1 := rfl
@[simp] theorem State.fetched_run : s.fetched.run = s.run := rfl
@[simp] theorem State.fetched_mem : s.fetched.mem = s.mem := rfl

@[simp] theorem State.raise_a (f : Fault) : (s.raise f).a = s.a := rfl
@[simp] theorem State.raise_x (f : Fault) : (s.raise f).x = s.x := rfl
@[simp] theorem State.raise_y (f : Fault) : (s.raise f).y = s.y := rfl
@[simp] theorem State.raise_p (f : Fault) : (s.raise f).p = s.p := rfl
@[simp] theorem State.raise_pc (f : Fault) : (s.raise f).pc = s.pc + 1 := rfl
@[simp] theorem State.raise_run (f : Fault) : (s.raise f).run = .faulted f := rfl
@[simp] theorem State.raise_mem (f : Fault) : (s.raise f).mem = s.mem := rfl

@[simp] theorem State.setZN_a (r : Byte) : (s.setZN r).a = s.a := rfl
@[simp] theorem State.setZN_x (r : Byte) : (s.setZN r).x = s.x := rfl
@[simp] theorem State.setZN_y (r : Byte) : (s.setZN r).y = s.y := rfl
@[simp] theorem State.setZN_p (r : Byte) : (s.setZN r).p = updateZN r s.p := rfl
@[simp] theorem State.setZN_pc (r : Byte) : (s.setZN r).pc = s.pc := rfl
@[simp] theorem State.setZN_run (r : Byte) : (s.setZN r).run = s.run := rfl
@[simp] theorem State.setZN_mem (r : Byte) : (s.setZN r).mem = s.mem := rfl

end

/-- Two states are equal if they agree in every field. -/
theorem State.ext_fields {s t : State} (ha : s.a = t.a) (hx : s.x = t.x) (hy : s.y = t.y) (hp : s.p = t.p)
    (hpc : s.pc = t.pc) (hrun : s.run = t.run) (hmem : s.mem = t.mem) : s = t := by
  cases s; cases t; simp_all

end Sys2Proof.Machine
end

