-- ==== Sys2Proof/Laws/Handlers.lean ====
section
/-!
SUPPORT. What each shared operation of a step can do, said once: the resolver, the two memory handlers, the
sequencer. Later proofs cite these instead of unfolding the operations.
-/
namespace Sys2Proof.Machine

/-- The resolver fails in two cases only: NoneAddressing, and Indirect_Y where it is not supported (R161). -/
theorem effectiveAddress_error {c : Config} {op : Operand} {s : State} {f : Fault}
    (h : effectiveAddress c op s = .error f) :
    (op = .noneAddressing ∧ f = .unsupportedAddressingMode .noneAddressing) ∨
      ((∃ b1, op = .indirectY b1) ∧ c.indirectYSupported = false ∧ f = .unsupportedAddressingMode .indirectY) := by
  cases op with
  | indirectY b1 =>
    by_cases hc : c.indirectYSupported = true
    · simp [effectiveAddress, hc] at h
    · simp only [effectiveAddress, hc] at h
      exact .inr ⟨⟨b1, rfl⟩, by simpa using hc, by simpa using h.symm⟩
  | noneAddressing => exact .inl ⟨rfl, by simpa [effectiveAddress] using h.symm⟩
  | _ => simp [effectiveAddress] at h

/-- The resolver depends on `PC`, `X`, `Y` and memory only (R89). -/
theorem effectiveAddress_congr (c : Config) (op : Operand) {s t : State} (hpc : s.pc = t.pc) (hx : s.x = t.x)
    (hy : s.y = t.y) (hm : s.mem = t.mem) : effectiveAddress c op s = effectiveAddress c op t := by
  cases op <;> simp [effectiveAddress, hpc, hx, hy, hm]

/-- Everything LDA can answer with a next state (R110). -/
theorem lda_next {c : Config} {op : Operand} {s t : State} (h : lda c op s = .next t) :
    ∃ ea, effectiveAddress c op s = .ok ea ∧ t = (s.setA (dataByte op ea s)).setZN (dataByte op ea s) := by
  unfold lda at h
  split at h
  · cases h
  · exact ⟨_, ‹_›, by simpa using h.symm⟩

/-- Everything STA can answer with a next state (R120). -/
theorem sta_next {c : Config} {op : Operand} {s t : State} (h : sta c op s = .next t) :
    ∃ ea, effectiveAddress c op s = .ok ea ∧ t = s.store ea s.a := by
  unfold sta at h
  split at h
  · cases h
  · exact ⟨_, ‹_›, by simpa using h.symm⟩

/-- LDA faults exactly where the resolver does. -/
theorem lda_fault {c : Config} {op : Operand} {s : State} {f : Fault} (h : lda c op s = .fault f) :
    effectiveAddress c op s = .error f := by
  unfold lda at h
  split at h <;> simp_all

/-- STA faults exactly where the resolver does. -/
theorem sta_fault {c : Config} {op : Operand} {s : State} {f : Fault} (h : sta c op s = .fault f) :
    effectiveAddress c op s = .error f := by
  unfold sta at h
  split at h <;> simp_all

/-- `exec` is the closed dispatch over the five mnemonics at the chosen value of the open parameter (R84). -/
theorem exec_eq_execute (i : Instr) (s : State) : exec i s = execute chosenConfig i s := by cases i <;> rfl

/-- `step` is the step of the machine at the chosen value of the open parameter (R7). -/
theorem step_eq_stepWith (s : State) : step s = stepWith chosenConfig s := by
  have h : exec = execute chosenConfig := by funext i s; exact exec_eq_execute i s
  unfold step stepWith
  rw [h]

/-- Everything a handler can answer with a next state: a load, a store, TAX, INX or BRK. -/
theorem execute_next {c : Config} {i : Instr} {s t : State} (h : execute c i s = .next t) :
    (i.mnemonic = .lda ∧ ∃ ea, effectiveAddress c i.operand s = .ok ea ∧
        t = (s.setA (dataByte i.operand ea s)).setZN (dataByte i.operand ea s)) ∨
      (i.mnemonic = .sta ∧ ∃ ea, effectiveAddress c i.operand s = .ok ea ∧ t = s.store ea s.a) ∨
      (i = .tax ∧ t = (s.setX s.a).setZN s.a) ∨
      (i = .inx ∧ t = (s.setX (s.x + 1)).setZN (s.x + 1)) ∨
      (i = .brk ∧ t = s.setRun .halted) := by
  cases i
  case tax => exact .inr (.inr (.inl ⟨rfl, by simpa [execute, Instr.mnemonic, execTax] using h.symm⟩))
  case inx => exact .inr (.inr (.inr (.inl ⟨rfl, by simpa [execute, Instr.mnemonic, execInx] using h.symm⟩)))
  case brk => exact .inr (.inr (.inr (.inr ⟨rfl, by simpa [execute, Instr.mnemonic, execBrk] using h.symm⟩)))
  all_goals first
    | exact .inl ⟨rfl, lda_next h⟩
    | exact .inr (.inl ⟨rfl, sta_next h⟩)

/-- Everything a step can do that answers a next state: a halted core stays, a running one runs the decoded
instruction on the state after the fetch and then, unless it halted, the fix-up (R80). -/
theorem sequencerStep_next {handler : Instr → State → Host.Outcome State Fault Refusal} {s t : State}
    (h : sequencerStep handler s = .next t) :
    (s.run = .halted ∧ t = s) ∨
      (s.run = .running ∧ ∃ i rest u, decode s.fetchWindow = .ok (i, rest) ∧ handler i s.fetched = .next u ∧
        t = if u.run = .halted then u else fixUp s.fetched.pc i.length u) := by
  unfold sequencerStep at h
  split at h
  · exact .inl ⟨‹_›, by simpa using h.symm⟩
  · cases h
  · refine .inr ⟨‹_›, ?_⟩
    split at h
    · cases h
    · rename_i i rest hd
      cases hh : handler i s.fetched with
      | next u => exact ⟨i, rest, u, hd, hh, by simpa [finish, hh] using h.symm⟩
      | fault f => simp [finish, hh] at h
      | refused r => simp [finish, hh] at h

/-- The fix-up changes the program counter only. -/
theorem fixUp_eq (pc0 : Addr) (n : Nat) (s : State) :
    fixUp pc0 n s = s.setPC (if s.pc = pc0 then s.pc + BitVec.ofNat 16 (n - 1) else s.pc) := by
  unfold fixUp
  split <;> rfl

end Sys2Proof.Machine
end

