-- ==== Sys2Proof/Laws/Bus.lean ====
section
/-!
SUPPORT. What the list of a step's accesses can be (R53, R54): the fetch alone, or the fetch and the accesses of the
decoded instruction's handler.
-/
namespace Sys2Proof.Machine

/-- A core that is not Running makes no access (R152). -/
theorem stepAccesses_of_not_running {c : Config} {s : State} (h : s.run ≠ .running) : stepAccesses c s = [] := by
  unfold stepAccesses
  split
  · rfl
  · rfl
  · exact absurd ‹_› h

/-- A running core fetches, then makes the accesses of the decoded instruction's handler (R54). -/
theorem stepAccesses_of_decoded {c : Config} {s : State} {i : Instr} {rest : List Byte} (hr : s.run = .running)
    (hd : decode s.fetchWindow = .ok (i, rest)) : stepAccesses c s = .read s.pc :: handlerAccesses c i s.fetched := by
  simp only [stepAccesses, hr, hd]

/-- Where nothing is decoded the fetch is the only access (R83). -/
theorem stepAccesses_of_undecoded {c : Config} {s : State} {e : DecodeError} (hr : s.run = .running)
    (hd : decode s.fetchWindow = .error e) : stepAccesses c s = [.read s.pc] := by
  simp only [stepAccesses, hr, hd]

/-- The accesses of LDA and STA where the resolver answers (R54). -/
theorem resolvedAccesses_of_ok {c : Config} {op : Operand} {data : Addr → Access} {s : State} {ea : Addr}
    (h : effectiveAddress c op s = .ok ea) :
    resolvedAccesses c op data s = operandReads op s.pc ++ pointerReads op s ++ [data ea] := by
  simp only [resolvedAccesses, h]

/-- Where the resolver raises it has read nothing (R98). -/
theorem resolvedAccesses_of_error {c : Config} {op : Operand} {data : Addr → Access} {s : State} {f : Fault}
    (h : effectiveAddress c op s = .error f) : resolvedAccesses c op data s = [] := by
  simp only [resolvedAccesses, h]

end Sys2Proof.Machine
end

