-- ==== Sys2Proof/Laws/Decode.lean ====
section
/-!
SUPPORT. The small lemmas of the byte-order helpers and of the opcode decoder.
-/
namespace Sys2Proof

@[simp] theorem lo8_leWord (lo hi : Byte) : lo8 (leWord lo hi) = lo := by
  apply BitVec.eq_of_getLsbD_eq
  intro i h
  simp only [lo8, leWord, BitVec.getLsbD_extractLsb', BitVec.getLsbD_append]
  simp [h]

@[simp] theorem hi8_leWord (lo hi : Byte) : hi8 (leWord lo hi) = hi := by
  apply BitVec.eq_of_getLsbD_eq
  intro i h
  simp only [hi8, leWord, BitVec.getLsbD_extractLsb', BitVec.getLsbD_append]
  simp [h]

@[simp] theorem leWord_lo8_hi8 (w : Addr) : leWord (lo8 w) (hi8 w) = w := by
  apply BitVec.eq_of_getLsbD_eq
  intro i h
  simp only [leWord, lo8, hi8, BitVec.getLsbD_append, BitVec.getLsbD_extractLsb']
  by_cases h8 : i < 8
  · simp [h8]
  · have : i - 8 < 8 := by omega
    have e : 8 + (i - 8) = i := by omega
    simp [h8, this, e]

/-- A word as a number: the high byte counts 256 (R11). -/
theorem leWord_toNat (lo hi : Byte) : (leWord lo hi).toNat = 256 * hi.toNat + lo.toNat := by
  unfold leWord
  rw [BitVec.toNat_append, Nat.shiftLeft_eq, Nat.mul_comm, ← Nat.two_pow_add_eq_or_of_lt lo.isLt]

/-- Zero extension keeps the number (R12). -/
theorem Machine.zext16_toNat (b : Byte) : (Machine.zext16 b).toNat = b.toNat := by
  have := b.isLt
  simp only [Machine.zext16, BitVec.toNat_setWidth]
  omega

/-- The opcode decoder gives a descriptor only where the table has that row (R69). -/
theorem decodeOpcode_mem {op : Byte} {d : Descriptor} (h : decodeOpcode op = some d) : (op, d) ∈ opcodeTable := by
  simp only [decodeOpcode, Option.map_eq_some_iff] at h
  obtain ⟨⟨op', d'⟩, hf, rfl⟩ := h
  have heq : op' = op := by simpa using List.find?_some hf
  exact heq ▸ List.mem_of_find?_eq_some hf

end Sys2Proof
end

