-- ==== Sys2Proof/Laws/Memory.lean ====
section
/-!
SUPPORT. The memory's laws: a read after a write (R42, R43), and the canonical form, which every memory operation
keeps.
-/
namespace Sys2Proof.Machine

theorem lookupCell_eraseCell (m : List Host.Cell) (k j : Nat) :
    lookupCell (eraseCell m k) j = if j = k then unlistedByte else lookupCell m j := by
  induction m with
  | nil => simp [eraseCell, lookupCell]
  | cons c rest ih =>
    obtain ⟨i, u⟩ := c
    by_cases hik : i = k
    · subst hik
      by_cases hji : j = i
      · subst hji; simpa [eraseCell] using ih
      · simp [eraseCell, ih, hji, lookupCell, Ne.symm hji]
    · by_cases hij : i = j
      · subst hij; simp [eraseCell, lookupCell, hik]
      · simp [eraseCell, lookupCell, hik, hij, ih]

theorem lookupCell_insertCell_same (m : List Host.Cell) (k : Nat) (v : Byte)
    (h : lookupCell m k = unlistedByte ∧ ∀ c ∈ m, c.1 ≠ k) : lookupCell (insertCell m k v) k = v := by
  induction m with
  | nil => simp [insertCell, lookupCell]
  | cons c rest ih =>
    obtain ⟨j, u⟩ := c
    have hj : j ≠ k := h.2 (j, u) (by simp)
    have hrest : lookupCell rest k = unlistedByte ∧ ∀ c ∈ rest, c.1 ≠ k :=
      ⟨by simpa [lookupCell, hj] using h.1, fun c hc => h.2 c (by simp [hc])⟩
    by_cases hkj : k < j
    · simp [insertCell, hkj, lookupCell]
    · simp [insertCell, hkj, lookupCell, hj, ih hrest]

theorem lookupCell_insertCell_other (m : List Host.Cell) (k j : Nat) (v : Byte) (hjk : j ≠ k) :
    lookupCell (insertCell m k v) j = lookupCell m j := by
  induction m with
  | nil => simp [insertCell, lookupCell, Ne.symm hjk]
  | cons c rest ih =>
    obtain ⟨i, u⟩ := c
    by_cases hki : k < i
    · simp [insertCell, hki, lookupCell, Ne.symm hjk]
    · simp [insertCell, hki, lookupCell, ih]

theorem eraseCell_key_ne (m : List Host.Cell) (k : Nat) : ∀ c ∈ eraseCell m k, c.1 ≠ k := by
  induction m with
  | nil => simp [eraseCell]
  | cons c rest ih =>
    obtain ⟨j, u⟩ := c
    by_cases hj : j = k
    · simpa [eraseCell, hj] using ih
    · intro c hc
      simp only [eraseCell, hj, if_false, List.mem_cons] at hc
      rcases hc with rfl | hc
      · exact hj
      · exact ih c hc

/-- Erasing a key and listing a value for it: reads at that key give the value, at any other key what they gave. -/
theorem lookupCell_insertCell_eraseCell (m : List Host.Cell) (k j : Nat) (v : Byte) :
    lookupCell (insertCell (eraseCell m k) k v) j = if j = k then v else lookupCell m j := by
  by_cases h : j = k
  · subst h
    rw [if_pos rfl]
    exact lookupCell_insertCell_same _ _ _ ⟨by simp [lookupCell_eraseCell], eraseCell_key_ne m j⟩
  · rw [lookupCell_insertCell_other _ _ _ _ h, lookupCell_eraseCell, if_neg h, if_neg h]

theorem wfFrom_mono {lo hi : Nat} (h : lo ≤ hi) (m : List Host.Cell) (hm : wfFrom hi m = true) :
    wfFrom lo m = true := by
  cases m with
  | nil => rfl
  | cons c rest =>
    obtain ⟨k, v⟩ := c
    simp only [wfFrom, Bool.and_eq_true, decide_eq_true_eq] at hm ⊢
    exact ⟨⟨⟨le_trans h hm.1.1.1, hm.1.1.2⟩, hm.1.2⟩, hm.2⟩

theorem wfFrom_eraseCell (lo : Nat) (m : List Host.Cell) (k : Nat) (hm : wfFrom lo m = true) :
    wfFrom lo (eraseCell m k) = true := by
  induction m generalizing lo with
  | nil => simpa [eraseCell] using hm
  | cons c rest ih =>
    obtain ⟨j, u⟩ := c
    simp only [wfFrom, Bool.and_eq_true, decide_eq_true_eq] at hm
    by_cases hj : j = k
    · rw [eraseCell, if_pos hj]
      exact wfFrom_mono (Nat.le_succ_of_le hm.1.1.1) _ (ih _ hm.2)
    · rw [eraseCell, if_neg hj]
      simp only [wfFrom, Bool.and_eq_true, decide_eq_true_eq]
      exact ⟨hm.1, ih _ hm.2⟩

theorem wfFrom_insertCell (lo : Nat) (m : List Host.Cell) (k : Nat) (v : Byte) (hlo : lo ≤ k) (hk : k < 65536)
    (hv : v ≠ unlistedByte) (hne : ∀ c ∈ m, c.1 ≠ k) (hm : wfFrom lo m = true) :
    wfFrom lo (insertCell m k v) = true := by
  induction m generalizing lo with
  | nil => simp [insertCell, wfFrom, hlo, hk, hv]
  | cons c rest ih =>
    obtain ⟨j, u⟩ := c
    have hj : j ≠ k := hne (j, u) (by simp)
    simp only [wfFrom, Bool.and_eq_true, decide_eq_true_eq] at hm
    by_cases hkj : k < j
    · rw [insertCell, if_pos hkj]
      simp only [wfFrom, Bool.and_eq_true, decide_eq_true_eq, bne_iff_ne, ne_eq]
      exact ⟨⟨⟨hlo, hk⟩, hv⟩, ⟨⟨hkj, hm.1.1.2⟩, by simpa using hm.1.2⟩, hm.2⟩
    · rw [insertCell, if_neg hkj]
      simp only [wfFrom, Bool.and_eq_true, decide_eq_true_eq]
      exact ⟨hm.1, ih _ (by omega) (fun c hc => hne c (by simp [hc])) hm.2⟩

/-- Writing one byte keeps the canonical form. -/
theorem Memory.wf_write {m : Memory} (hm : m.wf = true) (addr : Addr) (v : Byte) : (m.write addr v).wf = true := by
  unfold Memory.wf at hm ⊢
  unfold Memory.write
  split
  · exact wfFrom_eraseCell 0 m addr.toNat hm
  · exact wfFrom_insertCell 0 _ _ _ (Nat.zero_le _) addr.isLt ‹_› (eraseCell_key_ne m _)
      (wfFrom_eraseCell 0 m addr.toNat hm)

/-- Writing a word keeps the canonical form. -/
theorem Memory.wf_writeWord {m : Memory} (hm : m.wf = true) (addr w : Addr) : (m.writeWord addr w).wf = true :=
  Memory.wf_write (Memory.wf_write hm _ _) _ _

/-- Copying bytes keeps the canonical form. -/
theorem Memory.wf_copy {m : Memory} (hm : m.wf = true) (base : Addr) (bs : List Byte) :
    (m.copy base bs).wf = true := by
  induction bs generalizing m base with
  | nil => exact hm
  | cons b bs ih => exact ih (Memory.wf_write hm base b) (base + 1)

/-- The memory of `State.reset` is in canonical form. -/
theorem reset_memory_wf : State.reset.mem.wf = true := rfl

/-- The memory of `construct` is in canonical form. -/
theorem construct_memory_wf : construct.mem.wf = true := rfl

/-- Placing bytes at the program counter keeps the canonical form. -/
theorem State.placeAtPC_wf {s : State} (hm : s.mem.wf = true) (bytes : List Byte) :
    (s.placeAtPC bytes).mem.wf = true := Memory.wf_copy hm s.pc bytes

/-- What `load` leaves is in canonical form. -/
theorem State.loaded_wf {s : State} (hm : s.mem.wf = true) (image : List Byte) : (s.loaded image).mem.wf = true :=
  Memory.wf_writeWord (Memory.wf_copy hm progBase image) resetVector progBase

end Sys2Proof.Machine
end

