-- ==== Sys2Proof/Laws/PerInstr.lean ====
section
/-!
SUPPORT. A statement about every instruction as syntax, one lemma per constructor: its descriptor is that of a row
(R64), its bytes are as many as its length (R62), and the opcode decoder gives its descriptor for its first byte (R69).
-/
namespace Sys2Proof.Laws.RowOfTable

/-- The instruction is a row of the table, its encoding has the row's length, and its opcode decodes to the row. -/
def Statement (i : Instr) : Prop :=
  i.wellFormed = true ∧ (encode i).length = i.length ∧ decodeOpcode i.opcode = some i.descriptor

theorem ldaImmediate (b1 : Byte) : Statement (.ldaImmediate b1) := ⟨rfl, rfl, rfl⟩

theorem ldaZeroPage (b1 : Byte) : Statement (.ldaZeroPage b1) := ⟨rfl, rfl, rfl⟩

theorem ldaZeroPageX (b1 : Byte) : Statement (.ldaZeroPageX b1) := ⟨rfl, rfl, rfl⟩

theorem ldaAbsolute (w : Addr) : Statement (.ldaAbsolute w) := ⟨rfl, rfl, rfl⟩

theorem ldaAbsoluteX (w : Addr) : Statement (.ldaAbsoluteX w) := ⟨rfl, rfl, rfl⟩

theorem ldaAbsoluteY (w : Addr) : Statement (.ldaAbsoluteY w) := ⟨rfl, rfl, rfl⟩

theorem ldaIndirectX (b1 : Byte) : Statement (.ldaIndirectX b1) := ⟨rfl, rfl, rfl⟩

theorem ldaIndirectY (b1 : Byte) : Statement (.ldaIndirectY b1) := ⟨rfl, rfl, rfl⟩

theorem staZeroPage (b1 : Byte) : Statement (.staZeroPage b1) := ⟨rfl, rfl, rfl⟩

theorem staZeroPageX (b1 : Byte) : Statement (.staZeroPageX b1) := ⟨rfl, rfl, rfl⟩

theorem staAbsolute (w : Addr) : Statement (.staAbsolute w) := ⟨rfl, rfl, rfl⟩

theorem staAbsoluteX (w : Addr) : Statement (.staAbsoluteX w) := ⟨rfl, rfl, rfl⟩

theorem staAbsoluteY (w : Addr) : Statement (.staAbsoluteY w) := ⟨rfl, rfl, rfl⟩

theorem staIndirectX (b1 : Byte) : Statement (.staIndirectX b1) := ⟨rfl, rfl, rfl⟩

theorem staIndirectY (b1 : Byte) : Statement (.staIndirectY b1) := ⟨rfl, rfl, rfl⟩

theorem tax : Statement .tax := ⟨rfl, rfl, rfl⟩

theorem inx : Statement .inx := ⟨rfl, rfl, rfl⟩

theorem brk : Statement .brk := ⟨rfl, rfl, rfl⟩

end Sys2Proof.Laws.RowOfTable
end

