-- ==== Sys2Proof/Laws/Transactions.lean ====
section
/-!
SUPPORT. What the host transactions do, said once: a run by the run state it starts in, and what an accepted
transaction answers.
-/
namespace Sys2Proof.Machine

section
variable {stepOf : State → Host.Outcome State Fault Refusal} {s : State} {n : Nat}

/-- A run of a halted core returns Halted with no step (R185). -/
theorem runBy_halted (h : s.run = .halted) : runBy stepOf n s = .halted s := by
  unfold runBy; simp [h]

/-- A run of a faulted core is refused (R188). -/
theorem runBy_faulted {f : Fault} (h : s.run = .faulted f) : runBy stepOf n s = .refused .afterFault := by
  unfold runBy; simp [h]

/-- A run of a running core with no fuel is unfinished (R186). -/
theorem runBy_no_fuel (h : s.run = .running) : runBy stepOf 0 s = .unfinished s := by
  unfold runBy; simp [h]

/-- A run of a running core takes one step and goes on from there, or ends with the fault (R185). -/
theorem runBy_step (h : s.run = .running) : runBy stepOf (n + 1) s =
    match stepOf s with
    | .next s' => runBy stepOf n s'
    | .fault f => .fault f (s.raise f)
    | .refused r => .refused r := by
  conv_lhs => unfold runBy
  cases stepOf s <;> simp only [h]

end

/-- A transaction that answers a next state was not refused for an earlier fault (R188). -/
theorem State.unlessFaulted_next {s t : State} {answer : Host.Outcome State Fault Refusal}
    (h : s.unlessFaulted answer = .next t) : answer = .next t := by
  unfold State.unlessFaulted at h
  split at h
  · cases h
  all_goals exact h

/-- A core that has not faulted answers its transactions (R188). -/
theorem State.unlessFaulted_of_not_faulted {s : State} (h : ∀ f, s.run ≠ .faulted f)
    (answer : Host.Outcome State Fault Refusal) : s.unlessFaulted answer = answer := by
  unfold State.unlessFaulted
  split
  · exact absurd ‹_› (h _)
  all_goals rfl

end Sys2Proof.Machine
end

