-- ==== Sys2Proof/Tests/Slice0.lean ====
section
/-!
SUPPORT. The model's own tests. Expected results are the spec's: the vectors of 95_test_vectors.md (named in each
comment) and the encodings of 30_encoding.md. After them, for each statement with hypotheses, a witness that meets them.
-/
namespace Sys2Proof.Tests

open Sys2Proof.Machine

/-- A running machine with the code at `pc`, these registers, and these data bytes in memory. -/
def machine (pc : Addr) (code : List Byte) (a x y p : Byte) (data : List (Addr × Byte)) : State :=
  { a := a, x := x, y := y, p := p, pc := pc, run := .running
    mem := data.foldl (fun m c => m.write c.1 c.2) (Memory.copy [] pc code) }

/-- What a field of the next state holds, if the outcome is a next state. -/
def field {α : Type} (get : State → α) : Host.Outcome State Fault Refusal → Option α
  | .next s => some (get s)
  | .fault _ => none
  | .refused _ => none

/-- The fault, if the outcome is one. -/
def faultOf : Host.Outcome State Fault Refusal → Option Fault
  | .next _ => none
  | .fault f => some f
  | .refused _ => none

/-- The state, if the outcome is a next state. -/
def stateOf (o : Host.Outcome State Fault Refusal) : Option State := field (fun s => s) o

/-- The parameter at false (R7). -/
def noIndirectY : Config := ⟨false⟩

/-! ### Well-formed descriptors: one ill-formed term for each check -/

/-- STA has no Immediate row (R64, R65). -/
theorem test_illformed_mode : Descriptor.wellFormed ⟨.sta, .immediate, 2⟩ = false := by decide

/-- LDA has no ZeroPage_Y row (R93, conflict C2). -/
theorem test_illformed_mode_zeroPageY : Descriptor.wellFormed ⟨.lda, .zeroPageY, 2⟩ = false := by decide

/-- BRK's length is 1, not 2 (R62, decision D6). -/
theorem test_illformed_length : Descriptor.wellFormed ⟨.brk, .noneAddressing, 2⟩ = false := by decide

/-! ### Decoding: one word written out for each row (R60, R64) -/

theorem test_decode_ldaImmediate : decode [0b10101001, 0x05] = .ok (.ldaImmediate 0x05, []) := rfl
theorem test_decode_ldaZeroPage : decode [0b10100101, 0x10] = .ok (.ldaZeroPage 0x10, []) := rfl
theorem test_decode_ldaZeroPageX : decode [0b10110101, 0x80] = .ok (.ldaZeroPageX 0x80, []) := rfl
theorem test_decode_ldaAbsolute : decode [0b10101101, 0x34, 0x12] = .ok (.ldaAbsolute 0x1234, []) := rfl
theorem test_decode_ldaAbsoluteX : decode [0b10111101, 0xFF, 0x01] = .ok (.ldaAbsoluteX 0x01FF, []) := rfl
theorem test_decode_ldaAbsoluteY : decode [0b10111001, 0x00, 0x03] = .ok (.ldaAbsoluteY 0x0300, []) := rfl
theorem test_decode_ldaIndirectX : decode [0b10100001, 0x20] = .ok (.ldaIndirectX 0x20, []) := rfl
theorem test_decode_ldaIndirectY : decode [0b10110001, 0x10] = .ok (.ldaIndirectY 0x10, []) := rfl
theorem test_decode_staZeroPage : decode [0b10000101, 0xFF] = .ok (.staZeroPage 0xFF, []) := rfl
theorem test_decode_staZeroPageX : decode [0b10010101, 0x80] = .ok (.staZeroPageX 0x80, []) := rfl
theorem test_decode_staAbsolute : decode [0b10001101, 0xFC, 0xFF] = .ok (.staAbsolute 0xFFFC, []) := rfl
theorem test_decode_staAbsoluteX : decode [0b10011101, 0xFB, 0x01] = .ok (.staAbsoluteX 0x01FB, []) := rfl
theorem test_decode_staAbsoluteY : decode [0b10011001, 0x00, 0x03] = .ok (.staAbsoluteY 0x0300, []) := rfl
theorem test_decode_staIndirectX : decode [0b10000001, 0x10] = .ok (.staIndirectX 0x10, []) := rfl
theorem test_decode_staIndirectY : decode [0b10010001, 0x20] = .ok (.staIndirectY 0x20, []) := rfl
theorem test_decode_tax : decode [0b10101010, 0xFF] = .ok (.tax, [0xFF]) := rfl
theorem test_decode_inx : decode [0b11101000] = .ok (.inx, []) := rfl
theorem test_decode_brk : decode [0b00000000] = .ok (.brk, []) := rfl

/-- E2: 0x89 would be STA Immediate and is no instruction (R65). -/
theorem test_decode_rejects_staImmediate : decode [0x89, 0x00] = .error (.unrecognizedOpcode 0x89) := rfl

/-- An instruction cut short is refused by name. -/
theorem test_decode_rejects_truncated : decode [0xAD, 0x34] = .error (.missingOperand 0xAD) := rfl

/-- R64, R66: the 18 rows have 18 different opcode bytes, so 238 byte values have none. -/
theorem test_opcodes_distinct : (opcodeTable.map Prod.fst).Nodup ∧ (opcodeTable.map Prod.fst).length = 18 := by decide

/-- Encoding lays the low byte of an address first (R60). -/
theorem test_encode_staAbsolute : encode (.staAbsolute 0x0200) = [0x8D, 0x00, 0x02] := by decide

/-- The host's numbering: the first byte is the least significant; bits above `nbits` are 0. -/
theorem test_tableWord : decodeTableWord 24 0x1234AD = some (.ldaAbsolute 0x1234) ∧
    decodeTableWord 8 0x1234AD = some (.ldaAbsolute 0) ∧ decodeTableWord 8 0xEA = none := ⟨rfl, rfl, rfl⟩

/-- The placed instruction is the first that runs after reset. -/
theorem test_withFetchWord :
    field State.a (step (State.reset.withFetchWord 16 0x80A9)) = some 0x80 ∧
    field State.pc (step (State.reset.withFetchWord 16 0x80A9)) = some 0x0002 := by decide

/-- R70's spelling. -/
theorem test_assembly :
    (Instr.ldaImmediate 0x05).assembly = "LDA #$05".toList ∧ (Instr.staIndirectY 0x20).assembly = "STA ($20),Y".toList ∧
    (Instr.ldaAbsoluteX 0x01FF).assembly = "LDA $01FF,X".toList ∧
    (Instr.ldaIndirectX 0x2A).assembly = "LDA ($2A,X)".toList ∧ Instr.tax.assembly = "TAX".toList := by decide

/-! ### Flags and resolver -/

/-- F6, F7, F9, F11. -/
theorem test_updateZN : updateZN 0x00 0xFF = 0x7F ∧ updateZN 0x80 0xFF = 0xFD ∧ updateZN 0x00 0x7D = 0x7F ∧
    updateZN 0x01 0xFF = 0x7D := by decide

/-- A7: ZeroPage_Y wraps modulo 256. -/
theorem test_resolve_zeroPageY :
    effectiveAddress chosenConfig (.zeroPageY 0xF0) (machine 0x8001 [] 0 0 0x20 0 []) = .ok 0x0010 := rfl

/-- A9: a word at 0xFFFF takes its high byte from 0x0000. -/
theorem test_readWord_wraps : Memory.readWord (machine 0 [] 0 0 0 0 [(0xFFFF, 0x34), (0x0000, 0x12)]).mem 0xFFFF = 0x1234 :=
  rfl

/-- A21: NoneAddressing raises. -/
theorem test_resolve_none :
    effectiveAddress chosenConfig .noneAddressing State.reset = .error (.unsupportedAddressingMode .noneAddressing) := rfl

/-! ### LDA -/

/-- L4: Z cleared, the reserved bits kept. -/
theorem test_ldaImmediate_flags : field State.p (step (machine 0x8000 [0xA9, 0x7F] 0 0 0 0x7F [])) = some 0x7D := by decide

/-- Q1: the operand of an instruction at 0xFFFF is at 0x0000. -/
theorem test_ldaImmediate_wraps :
    field (fun s => (s.a, s.pc)) (step (machine 0xFFFF [0xA9, 0x42] 0 0 0 0 [])) = some (0x42, 0x0001) := by decide

/-- L5. -/
theorem test_ldaZeroPage :
    field (fun s => (s.a, s.p)) (step (machine 0x8000 [0xA5, 0x10] 0 0 0 0 [(0x0010, 0x55)])) = some (0x55, 0x00) := by decide

/-- L7: the sum wraps in the zero page. -/
theorem test_ldaZeroPageX_wraps :
    field (fun s => (s.a, s.p)) (step (machine 0x8000 [0xB5, 0x80] 0 0xFF 0 0 [(0x007F, 0xAB), (0x017F, 0x11)])) =
      some (0xAB, 0x80) := by decide

/-- L14: an instruction that straddles 0xFFFF. -/
theorem test_ldaAbsolute_straddles :
    field (fun s => (s.a, s.pc)) (step (machine 0xFFFE [0xAD, 0x34, 0x12] 0 0 0 0 [(0x1234, 0x66)])) =
      some (0x66, 0x0001) := by decide

/-- L9: the index carries into the next page. -/
theorem test_ldaAbsoluteX_carries :
    field State.a (step (machine 0x8000 [0xBD, 0xFF, 0x01] 0 0x01 0 0 [(0x0200, 0x7F)])) = some 0x7F := by decide

/-- A13: base 0xFFF0 plus Y = 0x20 is 0x0010. -/
theorem test_ldaAbsoluteY_wraps :
    field State.a (step (machine 0x8000 [0xB9, 0xF0, 0xFF] 0 0 0x20 0 [(0x0010, 0x77)])) = some 0x77 := by decide

/-- A15: pointer 0xFF takes its high byte from 0x0000, not from 0x0100. -/
theorem test_ldaIndirectX_pointer_wraps :
    field State.a (step (machine 0x8000 [0xA1, 0x00] 0 0xFF 0 0
      [(0x00FF, 0x00), (0x0000, 0x03), (0x0100, 0x09), (0x0300, 0x5C)])) = some 0x5C := by decide

/-- A18: Y is added to the word and carries. -/
theorem test_ldaIndirectY_carries :
    field State.a (step (machine 0x8000 [0xB1, 0x10] 0 0 0x01 0 [(0x0010, 0xFF), (0x0011, 0x12), (0x1300, 0x99)])) =
      some 0x99 := by decide

/-- L13: with the parameter false, the fault. -/
theorem test_ldaIndirectY_unsupported :
    faultOf (stepWith noIndirectY (machine 0x8000 [0xB1, 0x10] 0x33 0 0 0 [])) =
      some (.unsupportedAddressingMode .indirectY) := by decide

/-! ### STA -/

/-- T2: the top of the zero page, and P untouched. -/
theorem test_staZeroPage :
    field (fun s => (s.mem.read 0x00FF, s.p, s.pc)) (step (machine 0x8000 [0x85, 0xFF] 0x01 0 0 0x5A [])) =
      some (0x01, 0x5A, 0x8002) := by decide

/-- T3: wraps in the zero page. -/
theorem test_staZeroPageX_wraps :
    field (fun s => (s.mem.read 0x007F, s.mem.read 0x017F)) (step (machine 0x8000 [0x95, 0x80] 0xAB 0xFF 0 0x5A [])) =
      some (0xAB, 0x00) := by decide

/-- T13: the store hits its own operand; the address was resolved before. -/
theorem test_staAbsolute_own_operand :
    field (fun s => (s.mem.read 0x8001, s.pc)) (step (machine 0x8000 [0x8D, 0x01, 0x80] 0x00 0 0 0x5A [])) =
      some (0x00, 0x8003) := by decide

/-- T5: the reset vector is writable. -/
theorem test_staAbsolute_vector :
    field (fun s => s.mem.read 0xFFFC) (step (machine 0x8000 [0x8D, 0xFC, 0xFF] 0x34 0 0 0x5A [])) = some 0x34 := by decide

/-- T7: base 0xFFFF plus 2 is 0x0001. -/
theorem test_staAbsoluteX_wraps :
    field (fun s => s.mem.read 0x0001) (step (machine 0x8000 [0x9D, 0xFF, 0xFF] 0x09 0x02 0 0x5A [])) = some 0x09 := by
  decide

/-- T8. -/
theorem test_staAbsoluteY :
    field (fun s => s.mem.read 0x0300) (step (machine 0x8000 [0x99, 0x00, 0x03] 0x01 0 0 0x5A [])) = some 0x01 := by decide

/-- T10: the store overwrites its own pointer, after it was read. -/
theorem test_staIndirectX_own_pointer :
    field (fun s => s.mem.read 0x0010) (step (machine 0x8000 [0x81, 0x10] 0x55 0 0 0x5A [(0x0010, 0x10)])) = some 0x55 := by
  decide

/-- T11. -/
theorem test_staIndirectY :
    field (fun s => s.mem.read 0x0400) (step (machine 0x8000 [0x91, 0x20] 0x5A 0 0 0x5A [(0x0021, 0x04)])) = some 0x5A := by
  decide

/-- T12: with the parameter false, the fault. -/
theorem test_staIndirectY_unsupported :
    faultOf (stepWith noIndirectY (machine 0x8000 [0x91, 0x20] 0x5A 0 0 0x5A [(0x0021, 0x04)])) =
      some (.unsupportedAddressingMode .indirectY) := by decide

/-! ### TAX, INX, BRK -/

/-- X1: A = 0 sets Z and clears N. -/
theorem test_tax_zero :
    field (fun s => (s.x, s.p, s.pc)) (step (machine 0x8000 [0xAA] 0x00 0x55 0 0x80 [])) = some (0x00, 0x02, 0x8001) := by
  decide

/-- X3: the flags are recomputed, the reserved bits kept. -/
theorem test_tax_reserved :
    field (fun s => (s.x, s.p)) (step (machine 0x8000 [0xAA] 0x42 0x42 0 0x7F [])) = some (0x42, 0x7D) := by decide

/-- X6: 0xFF wraps to 0x00; the carry is discarded. -/
theorem test_inx_wraps :
    field (fun s => (s.x, s.p)) (step (machine 0x8000 [0xE8] 0 0xFF 0 0x80 [])) = some (0x00, 0x02) := by decide

/-- Q2: PC wraps past 0xFFFF. -/
theorem test_inx_pc_wraps : field State.pc (step (machine 0xFFFF [0xE8] 0 0 0 0 [])) = some 0x0000 := by decide

/-- B1: BRK halts, P and PC as stated. -/
theorem test_brk :
    field (fun s => (s.run, s.p, s.pc)) (step (machine 0x8000 [0x00] 0 0 0 0x5A [])) =
      some (RunState.halted, 0x5A, 0x8001) := by decide

/-- B2: BRK at 0xFFFF. -/
theorem test_brk_wraps : field State.pc (step (machine 0xFFFF [0x00] 0 0 0 0 [])) = some 0x0000 := by decide

/-! ### Faults and host transactions -/

/-- E1, E4: the byte and the address it was fetched from. -/
theorem test_unrecognized :
    faultOf (step (machine 0x8000 [0xEA] 0 0 0 0 [])) = some (.unrecognizedOpcode 0xEA 0x8000) ∧
    faultOf (step (machine 0x1234 [0xFF] 0 0 0 0 [])) = some (.unrecognizedOpcode 0xFF 0x1234) := by decide

/-- H1: construct, then run, halts at once with PC = 0x0001. -/
theorem test_run_after_construct : (hostRun 1 construct).state? = some { construct with pc := 0x0001, run := .halted } := by
  decide

/-- H2: an empty image still sets the vector. -/
theorem test_load_empty :
    field (fun s => (s.mem.read 0xFFFC, s.mem.read 0xFFFD)) (hostLoad [] construct) = some (0x00, 0x80) := by decide

/-- H5: reset takes PC from the vector as it stands. -/
theorem test_reset_vector :
    field State.pc (hostReset (machine 0x8000 [] 5 0 0 0xFF [(0xFFFC, 0x34), (0xFFFD, 0x12)])) = some 0x1234 := by decide

/-- R54: the accesses of LDA Indirect_X in order. -/
theorem test_accesses_ldaIndirectX :
    stepAccesses chosenConfig (machine 0x8000 [0xA1, 0x20] 0 0x04 0 0 [(0x0025, 0x03)]) =
      [.read 0x8000, .read 0x8001, .read 0x0024, .read 0x0025, .read 0x0300] := by decide

/-! ### Witnesses: for each statement with hypotheses, operands and a state that meet them -/

theorem witness_DecodeOfEncodeIsTheInstruction : (Instr.ldaAbsoluteX 0xFFFF).wellFormed = true := rfl

theorem witness_AcceptedBytesAreTheEncoding : decode [0x9D, 0xFF, 0xFF, 0x00] = .ok (.staAbsoluteX 0xFFFF, [0x00]) := rfl

theorem witness_DecoderRefusalsAreExactlyThese :
    decode [] = .error .noBytes ∧ decode [0xFF, 0x01] = .error (.unrecognizedOpcode 0xFF) ∧
    decode [0xBD, 0x01] = .error (.missingOperand 0xBD) := ⟨rfl, rfl, rfl⟩

theorem witness_WriteWordThenReadWord : (0x0001 : Addr) ≠ 0xFFFF ∧ (0x0001 : Addr) ≠ 0xFFFF + 1 := by decide

theorem witness_CanonicalMemoriesThatReadAlikeAreEqual :
    Memory.wf [(0x0000, 0x03), (0xFFFF, 0xCD)] = true ∧
    Memory.wf (Memory.write (Memory.write [] 0xFFFF 0xCD) 0x0000 0x03) = true ∧
    ∀ addr, Memory.read [(0x0000, 0x03), (0xFFFF, 0xCD)] addr =
      Memory.read (Memory.write (Memory.write [] 0xFFFF 0xCD) 0x0000 0x03) addr := ⟨rfl, rfl, fun _ => rfl⟩

theorem witness_UpdateZNSetsTwoBits : (0 : Nat) ≠ 1 ∧ (0 : Nat) ≠ 7 ∧ (6 : Nat) ≠ 1 ∧ (6 : Nat) ≠ 7 := by decide

theorem witness_ResolverZeroPageModes : decodeOpcode 0xB5 = some ⟨.lda, .zeroPageX, 2⟩ := rfl

/-- The state of A15: the pointer is 0xFF and its high byte is at 0x0000. -/
theorem witness_ResolverIndirectX :
    ∃ s : State, (0x00FF : Addr).toNat = ((s.mem.read s.pc).toNat + s.x.toNat) % 256 ∧
      (0x0000 : Addr).toNat = ((0x00FF : Addr).toNat + 1) % 256 :=
  ⟨machine 0x8001 [0x00] 0 0xFF 0 0 [], by decide⟩

/-- The state of A19: the pointer is 0xFF. -/
theorem witness_ResolverIndirectY :
    ∃ s : State, (0x0000 : Addr).toNat = ((s.mem.read s.pc).toNat + 1) % 256 :=
  ⟨machine 0x8001 [0xFF] 0 0 0 0 [], by decide⟩

theorem witness_ResolverImmediateAndNone : decodeOpcode 0xE8 = some ⟨.inx, .noneAddressing, 1⟩ := rfl

theorem witness_ResolversAgreeOnTheFetchedInstruction :
    decode (machine 0xFFFF [0x9D, 0xFB, 0x01] 0 5 0 0 []).fetchWindow = .ok (.staAbsoluteX 0x01FB, []) := rfl

/-- Both clauses: a mode that resolves, and Indirect_Y with the parameter false. -/
theorem witness_LoadStepReadsEffectiveAddressIntoA :
    (∃ (s : State) (d : Descriptor) (ea : Addr), s.run = .running ∧ decodeOpcode (s.mem.read s.pc) = some d ∧
      d.mnemonic = .lda ∧ Pseudocode.resolve chosenConfig d.mode s.fetched = .ok ea) ∧
    ∃ (s : State) (d : Descriptor) (f : Fault), s.run = .running ∧ decodeOpcode (s.mem.read s.pc) = some d ∧
      d.mnemonic = .lda ∧ Pseudocode.resolve noIndirectY d.mode s.fetched = .error f :=
  ⟨⟨machine 0xFFFE [0xAD, 0x34, 0x12] 0 0 0 0 [], _, _, rfl, rfl, rfl, rfl⟩,
   ⟨machine 0x8000 [0xB1, 0x10] 0 0 0 0 [], _, _, rfl, rfl, rfl, rfl⟩⟩

theorem witness_StoreStepWritesAToEffectiveAddress :
    (∃ (s : State) (d : Descriptor) (ea : Addr), s.run = .running ∧ decodeOpcode (s.mem.read s.pc) = some d ∧
      d.mnemonic = .sta ∧ Pseudocode.resolve chosenConfig d.mode s.fetched = .ok ea) ∧
    ∃ (s : State) (d : Descriptor) (f : Fault), s.run = .running ∧ decodeOpcode (s.mem.read s.pc) = some d ∧
      d.mnemonic = .sta ∧ Pseudocode.resolve noIndirectY d.mode s.fetched = .error f :=
  ⟨⟨machine 0x8000 [0x9D, 0xFF, 0xFF] 9 2 0 0 [], _, _, rfl, rfl, rfl, rfl⟩,
   ⟨machine 0x8000 [0x91, 0x20] 0 0 0 0 [], _, _, rfl, rfl, rfl, rfl⟩⟩

theorem witness_TransferIncrementBreakSteps :
    decodeOpcode ((machine 0xFFFF [0xAA] 0 0 0 0 []).mem.read 0xFFFF) = some ⟨.tax, .noneAddressing, 1⟩ ∧
    decodeOpcode ((machine 0xFFFF [0xE8] 0 0xFF 0 0 []).mem.read 0xFFFF) = some ⟨.inx, .noneAddressing, 1⟩ ∧
    decodeOpcode ((machine 0xFFFF [0x00] 0 0 0 0 []).mem.read 0xFFFF) = some ⟨.brk, .noneAddressing, 1⟩ ∧
    (machine 0xFFFF [0xAA] 0 0 0 0 []).run = .running := ⟨rfl, rfl, rfl, rfl⟩

/-- The addresses of the two indirect forms at the pointer 0xFF. -/
theorem witness_LoadMeaningsComplete :
    ∃ (s : State) (ea ea' : Addr),
      ea = s.mem.read ((0xFE + s.x + 1).setWidth 16) ++ s.mem.read ((0xFE + s.x).setWidth 16) ∧
      ea' = (s.mem.read (((0xFF : Byte) + 1).setWidth 16) ++ s.mem.read ((0xFF : Byte).setWidth 16)) +
        s.y.setWidth 16 ∧ ea = 0x0300 ∧ ea' = 0x0301 :=
  ⟨machine 0x8001 [] 0 1 1 0 [(0x0000, 0x03)], _, _, rfl, rfl, rfl, rfl⟩

theorem witness_StoreMeaningsComplete :
    ∃ (s : State) (ea ea' : Addr),
      ea = s.mem.read ((0x00 + s.x + 1).setWidth 16) ++ s.mem.read ((0x00 + s.x).setWidth 16) ∧
      ea' = (s.mem.read (((0xFF : Byte) + 1).setWidth 16) ++ s.mem.read ((0xFF : Byte).setWidth 16)) +
        s.y.setWidth 16 ∧ ea = 0xFFFF ∧ ea' = 0x0000 :=
  ⟨machine 0x8001 [] 0 0xFF 1 0 [(0x0000, 0xFF), (0x00FF, 0xFF)], _, _, rfl, rfl, rfl, rfl⟩

theorem witness_LoadFrame : ∃ t, (Instr.ldaIndirectY 0xFF).mnemonic = .lda ∧ exec (.ldaIndirectY 0xFF) State.reset = .next t :=
  ⟨_, rfl, rfl⟩

theorem witness_StoreFrame :
    ∃ t, (Instr.staIndirectX 0xFF).mnemonic = .sta ∧
      exec (.staIndirectX 0xFF) (machine 0x8001 [] 7 0 0 0 [(0x0000, 0x80)]) = .next t ∧
      effectiveAddress chosenConfig (Instr.staIndirectX 0xFF).operand (machine 0x8001 [] 7 0 0 0 [(0x0000, 0x80)]) =
        .ok 0x8000 := ⟨_, rfl, rfl, rfl⟩

theorem witness_TransferIncrementBreakFrame :
    (∃ t, exec .tax State.reset = .next t) ∧ (∃ t, exec .inx State.reset = .next t) ∧ ∃ t, exec .brk State.reset = .next t :=
  ⟨⟨_, rfl⟩, ⟨_, rfl⟩, ⟨_, rfl⟩⟩

/-- One instruction for each clause; a form with X read and one with Y read is outside the last two. -/
theorem witness_UnreadRegistersDoNotMatter :
    (Instr.ldaIndirectX 0).mnemonic = .lda ∧ Instr.staAbsoluteY 0 ≠ .tax ∧ Instr.staAbsoluteY 0 ≠ .inx ∧
    (Instr.staAbsoluteY 0).mode ≠ .zeroPageX ∧ (Instr.staAbsoluteY 0).mode ≠ .absoluteX ∧
    (Instr.staAbsoluteY 0).mode ≠ .indirectX ∧ (Instr.staAbsoluteX 0).mode ≠ .absoluteY ∧
    (Instr.staAbsoluteX 0).mode ≠ .indirectY := by decide

theorem witness_StepRunsDecodedInstruction :
    (machine 0xFFFF [0xBD, 0xFF, 0x01] 0 1 0 0 []).run = .running ∧
    decode (machine 0xFFFF [0xBD, 0xFF, 0x01] 0 1 0 0 []).fetchWindow = .ok (.ldaAbsoluteX 0x01FF, []) ∧
    (Instr.ldaAbsoluteX 0x01FF).wellFormed = true := ⟨rfl, rfl, rfl⟩

theorem witness_StepRunsTheBytesAtPC :
    Memory.Holds (machine 0xFFFE [0x8D, 0x00, 0x02] 0 0 0 0 []).mem 0xFFFE (encode (.staAbsolute 0x0200)) :=
  ⟨rfl, rfl, rfl, trivial⟩

theorem witness_StepIsTheSpecsPseudocode : State.reset.run = .running := rfl

/-- A step that stays Running and one that halts. -/
theorem witness_NextPcFollowsTheInstruction :
    (∃ t, step (machine 0xFFFE [0xAD, 0x34, 0x12] 0 0 0 0 []) = .next t ∧ t.run = .running) ∧
    ∃ t, step (machine 0xFFFF [0x00] 0 0 0 0 []) = .next t ∧ t.run = .halted := ⟨⟨_, rfl, rfl⟩, ⟨_, rfl, rfl⟩⟩

/-- A handler that leaves PC and one that moves it. -/
theorem witness_FixUpTestsLiteralEquality :
    (∃ (h : Instr → State → Host.Outcome State Fault Refusal) (u : State),
      h .inx { machine 0x8000 [0xE8] 0 0 0 0 [] with pc := 0x8001 } = .next u ∧ u.run = .running ∧ u.pc = 0x8001) ∧
    (∃ (h : Instr → State → Host.Outcome State Fault Refusal) (u : State),
      h .inx { machine 0x8000 [0xE8] 0 0 0 0 [] with pc := 0x8001 } = .next u ∧ u.run = .running ∧ u.pc ≠ 0x8001) ∧
    decode (machine 0x8000 [0xE8] 0 0 0 0 []).fetchWindow = .ok (.inx, [0, 0]) :=
  ⟨⟨exec, _, rfl, rfl, rfl⟩, ⟨fun _ s => .next { s with pc := 0x1234 }, _, rfl, rfl, by decide⟩, rfl⟩

theorem witness_UnrecognizedOpcodeFaults :
    (machine 0xFFFF [0xEA] 0 0 0 0 []).run = .running ∧
    decodeOpcode ((machine 0xFFFF [0xEA] 0 0 0 0 []).mem.read 0xFFFF) = none := ⟨rfl, rfl⟩

/-- Both disjuncts happen. -/
theorem witness_NoOtherConditionFaults :
    stepWith noIndirectY (machine 0x8000 [0xEA] 0 0 0 0 []) = .fault (.unrecognizedOpcode 0xEA 0x8000) ∧
    stepWith noIndirectY (machine 0x8000 [0xB1, 0x10] 0 0 0 0 []) = .fault (.unsupportedAddressingMode .indirectY) :=
  ⟨rfl, rfl⟩

theorem witness_UnsupportedIndirectYFaults : noIndirectY.indirectYSupported = false := rfl

theorem witness_FaultIsPrecise :
    (machine 0xFFFF [0xFF] 1 2 3 4 []).run = .running ∧
    stepWith chosenConfig (machine 0xFFFF [0xFF] 1 2 3 4 []) = .fault (.unrecognizedOpcode 0xFF 0xFFFF) := ⟨rfl, rfl⟩

theorem witness_StepKeepsInvariant :
    StateInv (machine 0x8000 [0x8D, 0xFF, 0xFF] 7 0 0 0x80 []) ∧
    ∃ t, step (machine 0x8000 [0x8D, 0xFF, 0xFF] 7 0 0 0x80 []) = .next t := ⟨⟨rfl, by decide⟩, ⟨_, rfl⟩⟩

/-- Each clause's transaction answers on a state that meets the invariant. -/
theorem witness_TransactionsKeepInvariant :
    StateInv State.reset ∧ (∃ t, hostLoad [0xA9, 0x05, 0x00] State.reset = .next t) ∧
    (∃ t, hostReset State.reset = .next t) ∧ (∃ t, hostWrite 0xFFFF 0x01 State.reset = .next t) ∧
    (∃ t, (hostRun 1 State.reset).state? = some t) ∧ ∃ t, (hostLoadAndRun 2 [0xE8, 0x00] State.reset).state? = some t :=
  ⟨⟨rfl, by decide⟩, ⟨_, rfl⟩, ⟨_, rfl⟩, ⟨_, rfl⟩, ⟨_, rfl⟩, ⟨_, rfl⟩⟩

theorem witness_ReservedStatusBitsPreserved :
    (∃ t, step (machine 0x8000 [0xA9, 0x00] 0 0 0 0xFF []) = .next t) ∧ (0 : Nat) ≠ 1 ∧ (6 : Nat) ≠ 7 ∧
    ∃ t, hostReset (machine 0x8000 [] 0 0 0 0xFF []) = .next t := ⟨⟨_, rfl⟩, by decide, by decide, ⟨_, rfl⟩⟩

theorem witness_YStaysZeroFromReset :
    (∃ t, step (machine 0x8000 [0xB9, 0x00, 0x03] 0 0 7 0 []) = .next t) ∧
    ∃ s0 t, hostReset (machine 0x8000 [0xE8, 0xAA, 0x00] 0 0 7 0 [(0xFFFD, 0x80)]) = .next s0 ∧
      Host.Core.run Sys2Proof.core 2 s0 = .next t := ⟨⟨_, rfl⟩, ⟨_, _, rfl, rfl⟩⟩

/-- One step for each kind of row named. -/
theorem witness_FlagsFollowTheLatestResult :
    (∃ t, step (machine 0x8000 [0xA9, 0x80] 0 0 0 0x02 []) = .next t) ∧
    (∃ t, step (machine 0x8000 [0xE8] 0 0xFF 0 0x80 []) = .next t) ∧
    (∃ t, step (machine 0x8000 [0x85, 0xFF] 0 0 0 0x80 []) = .next t) ∧
    decodeOpcode 0xA9 = some ⟨.lda, .immediate, 2⟩ ∧ decodeOpcode 0xE8 = some ⟨.inx, .noneAddressing, 1⟩ ∧
    decodeOpcode 0x85 = some ⟨.sta, .zeroPage, 2⟩ ∧ ∃ t, hostReset State.reset = .next t :=
  ⟨⟨_, rfl⟩, ⟨_, rfl⟩, ⟨_, rfl⟩, rfl, rfl, rfl, ⟨_, rfl⟩⟩

/-- Another memory, different at a byte the step does not read; a step that completes, and one that faults. -/
theorem witness_StepTouchesOnlyItsAccesses :
    (∃ (s : State) (m : Memory) (t : State), m ≠ s.mem ∧
      (∀ addr, Access.read addr ∈ stepAccesses chosenConfig s → m.read addr = s.mem.read addr) ∧
      stepWith chosenConfig s = .next t ∧ Access.write 0xFFFF 7 ∈ stepAccesses chosenConfig s) ∧
    ∃ (s : State) (m : Memory) (f : Fault), m ≠ s.mem ∧
      (∀ addr, Access.read addr ∈ stepAccesses chosenConfig s → m.read addr = s.mem.read addr) ∧
      stepWith chosenConfig s = .fault f := by
  refine ⟨⟨machine 0x8000 [0x8D, 0xFF, 0xFF] 7 0 0 0 [], Memory.copy [(0x0000, 0x01)] 0x8000 [0x8D, 0xFF, 0xFF], _,
    by decide, fun addr h => ?_, rfl, by decide⟩,
    ⟨machine 0x8000 [0xEA] 0 0 0 0 [], Memory.copy [] 0x8000 [0xEA, 0x01], _, by decide, fun addr h => ?_, rfl⟩⟩
  · have h' : addr ∈ ([0x8000, 0x8001, 0x8002] : List Addr) := by
      have e : stepAccesses chosenConfig (machine 0x8000 [0x8D, 0xFF, 0xFF] 7 0 0 0 []) =
        [.read 0x8000, .read 0x8001, .read 0x8002, .write 0xFFFF 7] := by decide
      rw [e] at h
      simpa using h
    revert h'
    revert addr
    simp only [List.mem_cons, List.not_mem_nil, or_false]
    rintro addr - (rfl | rfl | rfl) <;> decide
  · have e : stepAccesses chosenConfig (machine 0x8000 [0xEA] 0 0 0 0 []) = [.read 0x8000] := by decide
    rw [e] at h
    have h' : addr = 0x8000 := by simpa using h
    subst h'
    decide

/-- LDA Indirect_Y with its pointer at 0xFF, under both values of the parameter; STA Absolute_X at the end of memory;
LDA Immediate; LDA Indirect_X; INX; a byte with no row; a halted core. -/
theorem witness_StepAccessesCountAndOrder :
    (decodeOpcode ((machine 0x8000 [0xB1, 0xFF] 0 0 0 0 []).mem.read 0x8000) = some ⟨.lda, .indirectY, 2⟩ ∧
      Pseudocode.resolve ⟨true⟩ .indirectY (machine 0x8000 [0xB1, 0xFF] 0 0 0 0 []).fetched = .ok 0x0000 ∧
      Pseudocode.resolve ⟨false⟩ .indirectY (machine 0x8000 [0xB1, 0xFF] 0 0 0 0 []).fetched =
        .error (.unsupportedAddressingMode .indirectY)) ∧
    (decodeOpcode ((machine 0xFFFE [0x9D, 0xFF, 0xFF] 7 1 0 0 []).mem.read 0xFFFE) = some ⟨.sta, .absoluteX, 3⟩ ∧
      Pseudocode.resolve chosenConfig .absoluteX (machine 0xFFFE [0x9D, 0xFF, 0xFF] 7 1 0 0 []).fetched = .ok 0x0000) ∧
    (decodeOpcode ((machine 0x8000 [0xA9, 0x05] 0 0 0 0 []).mem.read 0x8000) = some ⟨.lda, .immediate, 2⟩ ∧
      Pseudocode.resolve chosenConfig .immediate (machine 0x8000 [0xA9, 0x05] 0 0 0 0 []).fetched = .ok 0x8001) ∧
    (decodeOpcode ((machine 0x8000 [0xA1, 0xFE] 0 1 0 0 []).mem.read 0x8000) = some ⟨.lda, .indirectX, 2⟩ ∧
      Pseudocode.resolve chosenConfig .indirectX (machine 0x8000 [0xA1, 0xFE] 0 1 0 0 []).fetched = .ok 0x0000) ∧
    decodeOpcode ((machine 0x8000 [0xE8] 0 0 0 0 []).mem.read 0x8000) = some ⟨.inx, .noneAddressing, 1⟩ ∧
    decodeOpcode ((machine 0x8000 [0xEA] 0 0 0 0 []).mem.read 0x8000) = none ∧
    (machine 0x8000 [0xE8] 0 0 0 0 []).run = .running ∧
    (State.reset.setRun .halted).run ≠ .running := by
  decide

/-- The accesses themselves, from R53, R54 and R98's corner: the pointer's high byte is read at 0x0000. -/
theorem test_accesses_of_lda_indirectY :
    stepAccesses chosenConfig (machine 0x8000 [0xB1, 0xFF] 0 0 3 0 [(0x0000, 0x12), (0x00FF, 0xFE)]) =
      [.read 0x8000, .read 0x8001, .read 0x00FF, .read 0x0000, .read 0x1301] := by decide

/-- The store hits the next instruction's opcode byte. -/
theorem witness_StoreIsSeenByTheNextFetch :
    decode (machine 0x8000 [0x8D, 0x03, 0x80] 0xE8 0 0 0 []).fetchWindow = .ok (.staAbsolute 0x8003, []) ∧
    (Instr.staAbsolute 0x8003).mnemonic = .sta ∧
    effectiveAddress chosenConfig (Instr.staAbsolute 0x8003).operand
      { machine 0x8000 [0x8D, 0x03, 0x80] 0xE8 0 0 0 [] with pc := 0x8001 } = .ok 0x8003 := ⟨rfl, rfl, rfl⟩

theorem witness_ResetIsIdempotent : ∃ t, hostReset (machine 0 [] 5 5 5 0xFF [(0xFFFC, 0x34)]) = .next t := ⟨_, rfl⟩

/-- Not faulted, and lengths on both sides of the limit. -/
theorem witness_LoadPlacesImageAndVector :
    (∀ f, State.reset.run ≠ .faulted f) ∧ (List.replicate 0x8000 (0xEA : Byte)).length ≤ 0x8000 ∧
    0x8000 < (List.replicate 0x8001 (0xEA : Byte)).length := by
  refine ⟨fun f h => (by cases h), ?_, ?_⟩ <;> rw [List.length_replicate]
  decide

/-- An accepted image, the longest accepted one, the shortest refused one, and a core that has not faulted. -/
theorem witness_LoadAndRunIsLoadResetRun :
    (∃ s1 s2, hostLoad [0xA9, 0x05, 0x00] State.reset = .next s1 ∧ hostReset s1 = .next s2) ∧
    (List.replicate 0x8000 (0xE8 : Byte)).length ≤ 0x8000 ∧
    0x8000 < (List.replicate 0x8001 (0xE8 : Byte)).length ∧
    hostLoad (List.replicate 0x8001 0xE8) State.reset = .refused (.imageTooLong 0x8001) ∧
    ∀ f, State.reset.run ≠ .faulted f := by
  refine ⟨⟨_, _, rfl, rfl⟩, by rw [List.length_replicate], by rw [List.length_replicate]; decide, ?_, fun f h => by cases h⟩
  unfold hostLoad
  rw [List.length_replicate]
  rfl

/-- Each way a run can end. -/
theorem witness_RunResultDoesNotDependOnFuel :
    (∃ t, hostRun 1 (machine 0x8000 [0x00] 0 0 0 0 []) = .halted t) ∧
    (∃ f t, hostRun 1 (machine 0x8000 [0xEA] 0 0 0 0 []) = .fault f t) ∧
    ∃ t, hostRun 0 (machine 0x8000 [0xE8] 0 0 0 0 []) = .unfinished t := ⟨⟨_, rfl⟩, ⟨_, _, rfl⟩, ⟨_, rfl⟩⟩

theorem witness_HostWriteThenRead : ∀ f, (machine 0x8000 [] 1 2 3 4 []).run ≠ .faulted f := fun f h => by cases h

theorem witness_HaltedCoreOnlyAnswersTheHost : (State.reset.setRun .halted).run = .halted := rfl

theorem witness_FaultedCoreRefusesEveryTransaction :
    (State.reset.raise (.unrecognizedOpcode 0xEA 0x0000)).run = .faulted (.unrecognizedOpcode 0xEA 0x0000) := rfl

end Sys2Proof.Tests
end

section
/-!
PROOFS. The status update bit by bit (R100), a read after a write (R43), the machine's invariant under each state
operation, a step, a run and the host's transactions, and what the host observes after its write (R8, R52).
-/
namespace Sys2Proof.Machine

/-! ### The status update -/

/-- `UpdateZN` sets Z exactly if the result is 0 (R100). -/
@[simp] theorem flagZ_updateZN (r p : Byte) : flagZ (updateZN r p) = decide (r = 0) := by
  unfold flagZ updateZN
  by_cases h : r = 0#8 <;> simp [h]

/-- `UpdateZN` copies bit 7 of the result to N (R100). -/
@[simp] theorem flagN_updateZN (r p : Byte) : flagN (updateZN r p) = r.getLsbD 7 := by
  unfold flagN updateZN
  by_cases h : r = 0#8 <;> simp [h]

/-- A result that is 0 has bit 7 clear, so `UpdateZN` never sets both flags (R100). -/
theorem updateZN_not_both (r p : Byte) : ¬ (flagZ (updateZN r p) = true ∧ flagN (updateZN r p) = true) := by
  rintro ⟨hz, hn⟩
  have hr : r = 0 := by simpa using hz
  simp [hr] at hn

/-! ### A read after a write -/

/-- The byte written is read at its address, the old byte at every other (R43). -/
theorem Memory.read_write (m : Memory) (addr other : Addr) (v : Byte) :
    (m.write addr v).read other = if other = addr then v else m.read other := by
  unfold Memory.read Memory.write
  split
  next hv => simp only [lookupCell_eraseCell, BitVec.toNat_inj, hv]
  next => simp only [lookupCell_insertCell_eraseCell, BitVec.toNat_inj]

/-! ### The invariant under each state operation -/

/-- The invariant speaks of memory and `P` only. -/
theorem StateInv.of_same_mem_p {s t : State} (h : StateInv s) (hm : t.mem = s.mem) (hp : t.p = s.p) : StateInv t := by
  unfold StateInv
  rw [hm, hp]
  exact h

/-- Setting Z and N from a result establishes the invariant over any canonical memory. -/
theorem StateInv.setZN {s : State} (hm : s.mem.wf = true) (r : Byte) : StateInv (s.setZN r) :=
  ⟨hm, updateZN_not_both r s.p⟩

/-- A store of one byte keeps the invariant. -/
theorem StateInv.store {s : State} (h : StateInv s) (addr : Addr) (v : Byte) : StateInv (s.store addr v) :=
  ⟨Memory.wf_write h.1 addr v, h.2⟩

/-- The fetch's advance keeps the invariant. -/
theorem StateInv.fetched {s : State} (h : StateInv s) : StateInv s.fetched := h.of_same_mem_p rfl rfl

/-- What a fatal error leaves meets the invariant (R162). -/
theorem StateInv.raise {s : State} (h : StateInv s) (f : Fault) : StateInv (s.raise f) := h.of_same_mem_p rfl rfl

/-- The fix-up keeps the invariant (R85). -/
theorem StateInv.fixUp {s : State} (h : StateInv s) (pc0 : Addr) (n : Nat) : StateInv (fixUp pc0 n s) := by
  rw [fixUp_eq]
  exact h.of_same_mem_p rfl rfl

/-- What `load` leaves meets the invariant (R181). -/
theorem StateInv.loaded {s : State} (h : StateInv s) (image : List Byte) : StateInv (s.loaded image) :=
  ⟨State.loaded_wf h.1 image, h.2⟩

/-- What `reset` leaves meets the invariant: it keeps memory and clears `P` (R183). -/
theorem StateInv.afterReset {s : State} (h : StateInv s) : StateInv s.afterReset :=
  ⟨h.1, fun hzn => absurd hzn.1 (by decide : flagZ 0 ≠ true)⟩

/-! ### The invariant under a step -/

/-- Every handler keeps the invariant: a load, TAX and INX set the flags anew, a store writes one byte, and BRK writes
neither memory nor `P`. -/
theorem execute_keeps_stateInv {c : Config} {i : Instr} {s t : State} (hs : StateInv s)
    (h : execute c i s = .next t) : StateInv t := by
  obtain ⟨-, ea, -, rfl⟩ | ⟨-, ea, -, rfl⟩ | ⟨-, rfl⟩ | ⟨-, rfl⟩ | ⟨-, rfl⟩ := execute_next h
  · exact StateInv.setZN hs.1 _
  · exact hs.store ea s.a
  · exact StateInv.setZN hs.1 _
  · exact StateInv.setZN hs.1 _
  · exact hs.of_same_mem_p rfl rfl

/-- Every step keeps the invariant, at either value of the open parameter (R7). -/
theorem stepWith_keeps_stateInv {c : Config} {s t : State} (hs : StateInv s) (h : stepWith c s = .next t) :
    StateInv t := by
  obtain ⟨-, rfl⟩ | ⟨-, i, rest, u, -, hu, rfl⟩ := sequencerStep_next h
  · exact hs
  · have hinv : StateInv u := execute_keeps_stateInv hs.fetched hu
    split
    · exact hinv
    · exact hinv.fixUp _ _

/-- Every step of the machine keeps the invariant. -/
theorem step_keeps_stateInv {s t : State} (hs : StateInv s) (h : step s = .next t) : StateInv t :=
  stepWith_keeps_stateInv hs (step_eq_stepWith s ▸ h)

/-! ### What a run and the transactions keep -/

/-- The induction over a run's fuel, once: a predicate that every completed step keeps, and that a fatal error keeps,
holds of the state a run ends in (R185). -/
theorem runBy_keeps {P : State → Prop} {stepOf : State → Host.Outcome State Fault Refusal}
    (hstep : ∀ s t, P s → stepOf s = .next t → P t) (hraise : ∀ s f, P s → P (s.raise f)) (n : Nat) {s t : State}
    (hs : P s) (h : (runBy stepOf n s).state? = some t) : P t := by
  induction n generalizing s with
  | zero =>
    cases hr : s.run with
    | running => rw [runBy_no_fuel hr] at h; cases h; exact hs
    | halted => rw [runBy_halted hr] at h; cases h; exact hs
    | faulted f => rw [runBy_faulted hr] at h; cases h
  | succ n ih =>
    cases hr : s.run with
    | running =>
      rw [runBy_step hr] at h
      cases ho : stepOf s with
      | next u => rw [ho] at h; exact ih (hstep s u hs ho) h
      | fault f => rw [ho] at h; cases h; exact hraise s f hs
      | refused r => rw [ho] at h; cases h
    | halted => rw [runBy_halted hr] at h; cases h; exact hs
    | faulted f => rw [runBy_faulted hr] at h; cases h

/-- A run keeps the invariant, however it ends. -/
theorem hostRun_keeps_stateInv {fuel : Nat} {s t : State} (hs : StateInv s)
    (h : (hostRun fuel s).state? = some t) : StateInv t :=
  runBy_keeps (fun _ _ => step_keeps_stateInv) (fun _ f hs => hs.raise f) fuel hs h

/-- A transaction that answers a fault was not refused for an earlier one (R188). -/
theorem State.unlessFaulted_fault {s : State} {answer : Host.Outcome State Fault Refusal} {f : Fault}
    (h : s.unlessFaulted answer = .fault f) : answer = .fault f := by
  unfold State.unlessFaulted at h
  split at h
  · cases h
  all_goals exact h

/-- All that an accepted `load` can do (R181). -/
theorem hostLoad_next {image : List Byte} {s t : State} (h : hostLoad image s = .next t) :
    image.length ≤ maxImage ∧ t = s.loaded image := by
  have ha := State.unlessFaulted_next h
  split at ha
  next hle => cases ha; exact ⟨hle, rfl⟩
  next => cases ha

/-- `load` raises no fatal error. -/
theorem hostLoad_ne_fault (image : List Byte) (s : State) (f : Fault) : hostLoad image s ≠ .fault f := by
  intro h
  have ha := State.unlessFaulted_fault h
  split at ha <;> cases ha

/-- All that an accepted `reset` can do (R183). -/
theorem hostReset_next {s t : State} (h : hostReset s = .next t) : t = s.afterReset := by
  cases State.unlessFaulted_next h
  rfl

/-- `reset` raises no fatal error. -/
theorem hostReset_ne_fault (s : State) (f : Fault) : hostReset s ≠ .fault f := fun h =>
  nomatch State.unlessFaulted_fault h

/-- All that an accepted `write` can do (R52). -/
theorem hostWrite_next {addr : Addr} {v : Byte} {s t : State} (h : hostWrite addr v s = .next t) :
    t = s.store addr v := by
  cases State.unlessFaulted_next h
  rfl

/-- A `load_and_run` that ends in a state ran from what an accepted load and then an accepted reset left (R187). -/
theorem hostLoadAndRun_state {fuel : Nat} {image : List Byte} {s t : State}
    (h : (hostLoadAndRun fuel image s).state? = some t) :
    ∃ s1 s2, hostLoad image s = .next s1 ∧ hostReset s1 = .next s2 ∧ (hostRun fuel s2).state? = some t := by
  unfold hostLoadAndRun at h
  split at h
  next hl => exact absurd hl (hostLoad_ne_fault _ _ _)
  next => cases h
  next s1 hl =>
    split at h
    next hr => exact absurd hr (hostReset_ne_fault _ _)
    next => cases h
    next s2 hr => exact ⟨s1, s2, hl, hr, h⟩

/-- An accepted load keeps the invariant. -/
theorem hostLoad_keeps_stateInv {image : List Byte} {s t : State} (hs : StateInv s)
    (h : hostLoad image s = .next t) : StateInv t := by
  obtain ⟨-, rfl⟩ := hostLoad_next h
  exact hs.loaded image

/-- An accepted reset keeps the invariant. -/
theorem hostReset_keeps_stateInv {s t : State} (hs : StateInv s) (h : hostReset s = .next t) : StateInv t := by
  obtain rfl := hostReset_next h
  exact hs.afterReset

/-- An accepted host write keeps the invariant. -/
theorem hostWrite_keeps_stateInv {addr : Addr} {v : Byte} {s t : State} (hs : StateInv s)
    (h : hostWrite addr v s = .next t) : StateInv t := by
  obtain rfl := hostWrite_next h
  exact hs.store addr v

/-- Settles O39: an accepted load, reset or write by what it leaves, a run by induction on its fuel, and
`load_and_run` by the three in sequence. -/
theorem transactionsKeepInvariant : Obligations.TransactionsKeepInvariant := by
  intro s hs
  refine ⟨fun _ _ => hostLoad_keeps_stateInv hs, fun _ => hostReset_keeps_stateInv hs,
    fun _ _ _ => hostWrite_keeps_stateInv hs, fun _ _ => hostRun_keeps_stateInv hs, fun fuel image t h => ?_⟩
  obtain ⟨s1, s2, hl, hr, hrun⟩ := hostLoadAndRun_state h
  exact hostRun_keeps_stateInv (hostReset_keeps_stateInv (hostLoad_keeps_stateInv hs hl) hr) hrun

/-! ### The host's write and its observations -/

section
variable {s : State} (hf : ∀ f, s.run ≠ .faulted f)
include hf

/-- A core that has not faulted accepts a host write (R188). -/
theorem hostWrite_of_not_faulted (addr : Addr) (v : Byte) : hostWrite addr v s = .next (s.store addr v) :=
  State.unlessFaulted_of_not_faulted hf _

/-- A core that has not faulted answers a host read with the byte in memory (R52). -/
theorem hostRead_of_not_faulted (addr : Addr) : hostRead addr s = .ok (s.mem.read addr) := by
  unfold hostRead
  split
  · exact absurd ‹_› (hf _)
  all_goals rfl

/-- A core that has not faulted shows the host its registers and run state (R8, conflict C5). -/
theorem hostRegs_of_not_faulted : hostRegs s = .ok ⟨s.a, s.x, s.y, s.p, s.pc, s.run⟩ := by
  unfold hostRegs
  split
  · exact absurd ‹_› (hf _)
  all_goals rfl

end

/-- Settles O51: the write is accepted and leaves `s.store addr v`, which differs from `s` in memory only, and there
by the read-after-write law. -/
theorem hostWriteThenRead : Obligations.HostWriteThenRead := by
  intro s addr v hf
  have ht : ∀ f, (s.store addr v).run ≠ .faulted f := hf
  refine ⟨s.store addr v, hostWrite_of_not_faulted hf addr v, ?_, hostRegs_of_not_faulted hf, fun other => ?_⟩
  · rw [hostRegs_of_not_faulted ht, hostRegs_of_not_faulted hf]
    rfl
  · rw [hostRead_of_not_faulted ht, State.store_mem, Memory.read_write]

end Sys2Proof.Machine
end

section
/-!
PROOFS. The state family (10_state.md): each handler's equation and what it leaves unchanged, the two forms of a
completed step, the decoder on an instruction's own bytes, and what follows of frames, unread registers, PC, flags, Y
and reset.
-/
namespace Sys2Proof

/-! ### The rows and the decoder -/

/-- No row has mode ZeroPage_Y (R93, conflict C2). -/
theorem Instr.mode_ne_zeroPageY (i : Instr) : i.mode ≠ .zeroPageY := by
  cases i <;> exact fun h => nomatch h

/-- TAX is its mnemonic's only row (R64). -/
theorem Instr.eq_tax {i : Instr} (h : i.mnemonic = .tax) : i = .tax := by
  cases i with
  | tax => rfl
  | _ => exact nomatch h

/-- INX is its mnemonic's only row (R64). -/
theorem Instr.eq_inx {i : Instr} (h : i.mnemonic = .inx) : i = .inx := by
  cases i with
  | inx => rfl
  | _ => exact nomatch h

/-- An instruction has its opcode byte at least (R62). -/
theorem Instr.one_le_length (i : Instr) : 1 ≤ i.length := Nat.le_add_right 1 _

/-- Every instruction is a row of the table, with its encoding's length and its opcode's descriptor (R62, R64, R69). -/
theorem rowOfTable (i : Instr) : Laws.RowOfTable.Statement i :=
  match i with
  | .ldaImmediate b1 => Laws.RowOfTable.ldaImmediate b1
  | .ldaZeroPage b1 => Laws.RowOfTable.ldaZeroPage b1
  | .ldaZeroPageX b1 => Laws.RowOfTable.ldaZeroPageX b1
  | .ldaAbsolute w => Laws.RowOfTable.ldaAbsolute w
  | .ldaAbsoluteX w => Laws.RowOfTable.ldaAbsoluteX w
  | .ldaAbsoluteY w => Laws.RowOfTable.ldaAbsoluteY w
  | .ldaIndirectX b1 => Laws.RowOfTable.ldaIndirectX b1
  | .ldaIndirectY b1 => Laws.RowOfTable.ldaIndirectY b1
  | .staZeroPage b1 => Laws.RowOfTable.staZeroPage b1
  | .staZeroPageX b1 => Laws.RowOfTable.staZeroPageX b1
  | .staAbsolute w => Laws.RowOfTable.staAbsolute w
  | .staAbsoluteX w => Laws.RowOfTable.staAbsoluteX w
  | .staAbsoluteY w => Laws.RowOfTable.staAbsoluteY w
  | .staIndirectX b1 => Laws.RowOfTable.staIndirectX b1
  | .staIndirectY b1 => Laws.RowOfTable.staIndirectY b1
  | .tax => Laws.RowOfTable.tax
  | .inx => Laws.RowOfTable.inx
  | .brk => Laws.RowOfTable.brk

/-- The operand bytes of an instruction, whatever follows them, give it back through its row (R60). -/
theorem takeOperand_bytes (i : Instr) (rest : List Byte) :
    ∃ b1 w, takeOperand i.mode (i.operand.bytes ++ rest) = some (b1, w, rest) ∧
      Instr.ofRow? i.mnemonic i.mode b1 w = some i := by
  cases i
  case ldaAbsolute w | ldaAbsoluteX w | ldaAbsoluteY w | staAbsolute w | staAbsoluteX w | staAbsoluteY w =>
    exact ⟨_, _, rfl, by rw [leWord_lo8_hi8]; rfl⟩
  all_goals exact ⟨_, _, rfl, rfl⟩

/-- Decoding the bytes of an instruction, whatever follows them, gives the instruction and leaves what follows (R60,
R69). -/
theorem decode_encode_append (i : Instr) (rest : List Byte) : decode (encode i ++ rest) = .ok (i, rest) := by
  obtain ⟨-, -, hop⟩ := rowOfTable i
  obtain ⟨b1, w, htake, hrow⟩ := takeOperand_bytes i rest
  simp only [encode, List.cons_append, decode, hop, Instr.descriptor, htake, hrow]

/-- No instruction is longer than the fetch window (R62). -/
theorem encode_length_le (i : Instr) : (encode i).length ≤ 3 := by
  cases i <;> exact Nat.le_of_ble_eq_true rfl

/-- The instruction of a row has the row's mnemonic (R64). -/
theorem Instr.mnemonic_of_ofRow? {mn : Mnemonic} {m : Mode} {b1 : Byte} {w : Addr} {i : Instr}
    (h : Instr.ofRow? mn m b1 w = some i) : i.mnemonic = mn := by
  unfold Instr.ofRow? at h
  split at h <;> cases h <;> rfl

/-- Accepted bytes begin with an opcode byte that has a row, and the instruction is that row's on the operand bytes
taken (R68, R69). -/
theorem decode_ok {op : Byte} {bytes : List Byte} {i : Instr} {rest : List Byte}
    (h : decode (op :: bytes) = .ok (i, rest)) :
    ∃ d b1 w, decodeOpcode op = some d ∧ takeOperand d.mode bytes = some (b1, w, rest) ∧
      Instr.ofRow? d.mnemonic d.mode b1 w = some i := by
  simp only [decode] at h
  split at h
  · cases h
  next d hop =>
    split at h
    · cases h
    next b1 w rest' htake =>
      split at h
      · cases h
      next j hrow => cases h; exact ⟨d, b1, w, hop, htake, hrow⟩

end Sys2Proof

namespace Sys2Proof.Machine

/-! ### The handlers by mnemonic -/

section
variable {c : Config} {i : Instr} {s : State}

/-- An LDA row's handler (R84, R110). -/
theorem execute_of_lda (h : i.mnemonic = .lda) : execute c i s = lda c i.operand s := by simp only [execute, h]

/-- A STA row's handler (R84, R120). -/
theorem execute_of_sta (h : i.mnemonic = .sta) : execute c i s = sta c i.operand s := by simp only [execute, h]

/-- TAX's handler (R84, R140). -/
theorem execute_of_tax (h : i.mnemonic = .tax) : execute c i s = .next ((s.setX s.a).setZN s.a) := by
  simp only [execute, h, execTax]

/-- INX's handler (R84, R141). -/
theorem execute_of_inx (h : i.mnemonic = .inx) : execute c i s = .next ((s.setX (s.x + 1)).setZN (s.x + 1)) := by
  simp only [execute, h, execInx]

/-- BRK's handler (R84, R150). -/
theorem execute_of_brk (h : i.mnemonic = .brk) : execute c i s = .next (s.setRun .halted) := by
  simp only [execute, h, execBrk]

end

/-- LDA answers wherever the resolver does (R110). -/
theorem lda_of_ok {c : Config} {op : Operand} {s : State} {ea : Addr} (h : effectiveAddress c op s = .ok ea) :
    lda c op s = .next ((s.setA (dataByte op ea s)).setZN (dataByte op ea s)) := by
  simp only [lda, h]

/-- STA answers wherever the resolver does (R120). -/
theorem sta_of_ok {c : Config} {op : Operand} {s : State} {ea : Addr} (h : effectiveAddress c op s = .ok ea) :
    sta c op s = .next (s.store ea s.a) := by
  simp only [sta, h]

/-! ### What every handler leaves unchanged -/

section
variable {c : Config} {i : Instr} {s t : State} (h : execute c i s = .next t)
include h

/-- No handler writes `Y` (R21). -/
theorem execute_y : t.y = s.y := by
  obtain ⟨-, ea, -, rfl⟩ | ⟨-, ea, -, rfl⟩ | ⟨-, rfl⟩ | ⟨-, rfl⟩ | ⟨-, rfl⟩ := execute_next h <;> rfl

/-- No handler writes `PC`: there is no jump (R24). -/
theorem execute_pc : t.pc = s.pc := by
  obtain ⟨-, ea, -, rfl⟩ | ⟨-, ea, -, rfl⟩ | ⟨-, rfl⟩ | ⟨-, rfl⟩ | ⟨-, rfl⟩ := execute_next h <;> rfl

/-- Only BRK's handler writes the run state, and it halts (R150). -/
theorem execute_run : t.run = s.run ∨ (i = .brk ∧ t.run = .halted) := by
  obtain ⟨-, ea, -, rfl⟩ | ⟨-, ea, -, rfl⟩ | ⟨-, rfl⟩ | ⟨-, rfl⟩ | ⟨hi, rfl⟩ := execute_next h
  case inr.inr.inr.inr => exact .inr ⟨hi, rfl⟩
  all_goals exact .inl rfl

end

/-! ### A completed step, forward and backward -/

/-- Past the opcode byte and then past the operand bytes is past the instruction (R82, R86). -/
theorem pc_after_operands (pc : Addr) (i : Instr) :
    pc + 1 + BitVec.ofNat 16 (i.length - 1) = pc + BitVec.ofNat 16 i.length := by
  obtain ⟨n, hn⟩ := Nat.exists_eq_add_of_le (Instr.one_le_length i)
  rw [hn, Nat.add_sub_cancel_left, BitVec.add_assoc, BitVec.ofNat_add]
  rfl

/-- Where the bytes at PC decode, a running core's step is the end of the decoded instruction's handler (R80). -/
theorem sequencerStep_of_decoded {handler : Instr → State → Host.Outcome State Fault Refusal} {s : State} {i : Instr}
    {rest : List Byte} (hr : s.run = .running) (hd : decode s.fetchWindow = .ok (i, rest)) :
    sequencerStep handler s = finish s.fetched.pc i.length (handler i s.fetched) := by
  simp only [sequencerStep, hr, hd]

/-- The end of a step whose handler completed moves PC past the instruction: by the fix-up, or, where BRK halted, by
the fetch alone, as BRK is one byte long (R85, R86, decision D6). -/
theorem finish_execute {c : Config} {i : Instr} {s u : State} (hr : s.run = .running)
    (h : execute c i s.fetched = .next u) :
    finish s.fetched.pc i.length (execute c i s.fetched) = .next (u.setPC (s.pc + BitVec.ofNat 16 i.length)) := by
  have hpc : u.pc = s.pc + 1 := execute_pc h
  rw [h]
  simp only [finish]
  obtain hrun | ⟨rfl, hrun⟩ := execute_run h
  · have hnot : u.run ≠ .halted := by simp [hrun, hr]
    rw [if_neg hnot, fixUp_eq, hpc, State.fetched_pc, if_pos rfl, pc_after_operands]
  · rw [if_pos hrun]
    exact congrArg _ (State.ext_fields rfl rfl rfl rfl hpc rfl rfl)

/-- A running core whose decoded instruction completes moves on past it (R80 to R86). -/
theorem stepWith_of_execute {c : Config} {s u : State} {i : Instr} {rest : List Byte} (hr : s.run = .running)
    (hd : decode s.fetchWindow = .ok (i, rest)) (hu : execute c i s.fetched = .next u) :
    stepWith c s = .next (u.setPC (s.pc + BitVec.ofNat 16 i.length)) := by
  unfold stepWith
  rw [sequencerStep_of_decoded hr hd, finish_execute hr hu]

/-- All that a completed step can do: a halted core stays; a running one runs the decoded instruction and moves on past
it. -/
theorem stepWith_next {c : Config} {s t : State} (h : stepWith c s = .next t) :
    (s.run = .halted ∧ t = s) ∨
      (s.run = .running ∧ ∃ i rest u, decode s.fetchWindow = .ok (i, rest) ∧ execute c i s.fetched = .next u ∧
        t = u.setPC (s.pc + BitVec.ofNat 16 i.length)) := by
  obtain hhalt | ⟨hr, i, rest, u, hd, hu, -⟩ := sequencerStep_next h
  · exact .inl hhalt
  · rw [stepWith_of_execute hr hd hu] at h
    exact .inr ⟨hr, i, rest, u, hd, hu, by simpa using h.symm⟩

/-- All that a completed step of a running core can do. -/
theorem stepWith_next_of_running {c : Config} {s t : State} (hr : s.run = .running) (h : stepWith c s = .next t) :
    ∃ i rest u, decode s.fetchWindow = .ok (i, rest) ∧ execute c i s.fetched = .next u ∧
      t = u.setPC (s.pc + BitVec.ofNat 16 i.length) := by
  obtain ⟨hhalt, -⟩ | ⟨-, hrun⟩ := stepWith_next h
  · rw [hr] at hhalt; cases hhalt
  · exact hrun

/-! ### Y is never written -/

/-- The induction over the number of steps, once: what every completed step keeps holds wherever steps lead. -/
theorem core_run_keeps {M : Host.Core} {P : M.State → Prop} (hstep : ∀ s t, P s → M.step s = .next t → P t) (n : Nat)
    {s t : M.State} (hs : P s) (h : M.run n s = .next t) : P t := by
  induction n generalizing s with
  | zero => cases h; exact hs
  | succ n ih =>
    simp only [Host.Core.run] at h
    cases ho : M.step s with
    | next u => rw [ho] at h; exact ih (hstep s u hs ho) h
    | fault f => rw [ho] at h; cases h
    | refused r => rw [ho] at h; cases h

/-- No step writes `Y`, at either value of the open parameter (R21, R22). -/
theorem stepWith_y {c : Config} {s t : State} (h : stepWith c s = .next t) : t.y = s.y := by
  obtain ⟨-, rfl⟩ | ⟨-, i, rest, u, -, hu, rfl⟩ := stepWith_next h
  · rfl
  · rw [State.setPC_y, execute_y hu, State.fetched_y]

/-- No step of the machine writes `Y` (R22). -/
theorem step_y {s t : State} (h : step s = .next t) : t.y = s.y := stepWith_y (step_eq_stepWith s ▸ h)

/-- Settles O41: no step writes Y, an accepted reset clears it, and induction on the number of steps. -/
theorem yStaysZeroFromReset : Obligations.YStaysZeroFromReset := by
  refine ⟨fun s t => step_y, fun s s0 t n hreset hrun => ?_⟩
  have h0 : s0.y = 0 := by rw [hostReset_next hreset]; rfl
  exact core_run_keeps (M := Sys2Proof.core) (P := fun u : State => u.y = 0)
    (fun u v hu huv => (step_y huv).trans hu) n h0 hrun

/-! ### The frames of the meanings -/

/-- The constants of `UpdateZN` at a reserved bit: it is kept, and nothing is set over it (R100). -/
theorem updateZN_masks : ∀ k < 8, k ≠ 1 → k ≠ 7 →
    (0x7D : Byte).getLsbD k = true ∧ (0x02 : Byte).getLsbD k = false ∧ (0x00 : Byte).getLsbD k = false ∧
      (0x80 : Byte).getLsbD k = false := by
  decide

/-- `UpdateZN` passes every bit but Z and N through (R26, R100). -/
theorem updateZN_reserved (r p : Byte) {k : Nat} (h1 : k ≠ 1) (h7 : k ≠ 7) :
    (updateZN r p).getLsbD k = p.getLsbD k := by
  rcases Nat.lt_or_ge k 8 with hk | hk
  · obtain ⟨hkept, hz, hnoz, hn⟩ := updateZN_masks k hk h1 h7
    unfold updateZN
    split <;> simp only [BitVec.getLsbD_or, BitVec.getLsbD_and, hkept, hz, hnoz, hn, Bool.and_true, Bool.and_false,
      Bool.or_false]
  · rw [BitVec.getLsbD_of_ge _ _ hk, BitVec.getLsbD_of_ge _ _ hk]

/-- Settles O23: a load changes A, and Z and N by `UpdateZN`. -/
theorem loadFrame : Obligations.LoadFrame := by
  intro i s t hi h
  rw [exec_eq_execute, execute_of_lda hi] at h
  obtain ⟨ea, -, rfl⟩ := lda_next h
  exact ⟨rfl, rfl, rfl, rfl, fun k h1 h7 => updateZN_reserved _ _ h1 h7, fun _ => rfl⟩

/-- Settles O24: a store changes memory only, at the effective address only. -/
theorem storeFrame : Obligations.StoreFrame := by
  intro i s t hi h
  rw [exec_eq_execute, execute_of_sta hi] at h
  obtain ⟨ea, hea, rfl⟩ := sta_next h
  refine ⟨rfl, rfl, rfl, rfl, rfl, rfl, fun ea' hea' => ?_⟩
  obtain rfl : ea = ea' := by simpa [hea] using hea'
  exact ⟨by rw [State.store_mem, Memory.read_write, if_pos rfl],
    fun addr hne => by rw [State.store_mem, Memory.read_write, if_neg hne]⟩

/-- TAX and INX write X, and Z and N from the new X, and nothing else (R140, R141). -/
theorem execute_tax_or_inx_next {c : Config} {i : Instr} {s t : State} (hi : i.mnemonic = .tax ∨ i.mnemonic = .inx)
    (h : execute c i s = .next t) : ∃ v, t = (s.setX v).setZN v := by
  rcases hi with hi | hi
  · rw [execute_of_tax hi] at h; cases h; exact ⟨_, rfl⟩
  · rw [execute_of_inx hi] at h; cases h; exact ⟨_, rfl⟩

/-- Settles O25: TAX and INX change X, Z and N only, BRK the run state only. -/
theorem transferIncrementBreakFrame : Obligations.TransferIncrementBreakFrame := by
  constructor
  · intro i s t hi h
    have hmn : i.mnemonic = .tax ∨ i.mnemonic = .inx := hi.imp (congrArg Instr.mnemonic) (congrArg Instr.mnemonic)
    rw [exec_eq_execute] at h
    obtain ⟨v, rfl⟩ := execute_tax_or_inx_next hmn h
    exact ⟨rfl, rfl, rfl, rfl, fun k h1 h7 => updateZN_reserved _ _ h1 h7, fun _ => rfl⟩
  · intro s t h
    rw [exec_eq_execute, execute_of_brk rfl] at h
    cases h
    exact ⟨rfl, rfl, rfl, rfl, rfl, fun _ => rfl⟩

/-! ### Registers that are not read -/

/-- The byte a load reads depends on memory only (R110). -/
theorem dataByte_congr (op : Operand) (ea : Addr) {s t : State} (hm : s.mem = t.mem) :
    dataByte op ea s = dataByte op ea t := by
  cases op <;> simp only [dataByte, hm]

/-- The resolver reads X in the three X modes only (R89). -/
theorem effectiveAddress_setX (c : Config) {op : Operand} (s : State) (v : Byte) (hzp : op.mode ≠ .zeroPageX)
    (habs : op.mode ≠ .absoluteX) (hind : op.mode ≠ .indirectX) :
    effectiveAddress c op (s.setX v) = effectiveAddress c op s := by
  cases op with
  | zeroPageX b1 => exact absurd rfl hzp
  | absoluteX w => exact absurd rfl habs
  | indirectX b1 => exact absurd rfl hind
  | _ => rfl

/-- The resolver reads Y in the three Y modes only (R89). -/
theorem effectiveAddress_setY (c : Config) {op : Operand} (s : State) (v : Byte) (hzp : op.mode ≠ .zeroPageY)
    (habs : op.mode ≠ .absoluteY) (hind : op.mode ≠ .indirectY) :
    effectiveAddress c op { s with y := v } = effectiveAddress c op s := by
  cases op with
  | zeroPageY b1 => exact absurd rfl hzp
  | absoluteY w => exact absurd rfl habs
  | indirectY b1 => exact absurd rfl hind
  | _ => rfl

/-- LDA commutes with a change to the state that neither the address nor memory sees and that LDA does not overwrite. -/
theorem lda_comm {c : Config} {op : Operand} {s : State} (f : State → State)
    (hea : effectiveAddress c op (f s) = effectiveAddress c op s) (hm : (f s).mem = s.mem)
    (hf : ∀ r, ((f s).setA r).setZN r = f ((s.setA r).setZN r)) : lda c op (f s) = mapNext f (lda c op s) := by
  cases h : effectiveAddress c op s with
  | error e => simp only [lda, hea, h, mapNext]
  | ok ea => rw [lda_of_ok h, lda_of_ok (hea.trans h), dataByte_congr op ea hm, hf]; rfl

/-- STA commutes with a change to the state that the address does not see and that commutes with storing A. -/
theorem sta_comm {c : Config} {op : Operand} {s : State} (f : State → State)
    (hea : effectiveAddress c op (f s) = effectiveAddress c op s)
    (hf : ∀ ea, (f s).store ea (f s).a = f (s.store ea s.a)) : sta c op (f s) = mapNext f (sta c op s) := by
  cases h : effectiveAddress c op s with
  | error e => simp only [sta, hea, h, mapNext]
  | ok ea => rw [sta_of_ok h, sta_of_ok (hea.trans h), hf]; rfl

/-- LDA overwrites A without reading it (R110). -/
theorem lda_setA (c : Config) (op : Operand) (s : State) (v : Byte) : lda c op (s.setA v) = lda c op s := by
  have hea : effectiveAddress c op (s.setA v) = effectiveAddress c op s := effectiveAddress_congr c op rfl rfl rfl rfl
  cases h : effectiveAddress c op s with
  | error e => simp only [lda, hea, h]
  | ok ea => rw [lda_of_ok h, lda_of_ok (hea.trans h), dataByte_congr op ea (State.setA_mem s v)]; rfl

/-- Outside the X modes, TAX and INX, a change of X before an instruction is that change after it (R21). -/
theorem execute_setX (c : Config) {i : Instr} (s : State) (v : Byte) (htax : i ≠ .tax) (hinx : i ≠ .inx)
    (hzp : i.mode ≠ .zeroPageX) (habs : i.mode ≠ .absoluteX) (hind : i.mode ≠ .indirectX) :
    execute c i { s with x := v } = mapNext (fun t => { t with x := v }) (execute c i s) := by
  have hea := effectiveAddress_setX c s v hzp habs hind
  cases hmn : i.mnemonic with
  | lda => rw [execute_of_lda hmn, execute_of_lda hmn]; exact lda_comm (fun t => { t with x := v }) hea rfl fun _ => rfl
  | sta => rw [execute_of_sta hmn, execute_of_sta hmn]; exact sta_comm (fun t => { t with x := v }) hea fun _ => rfl
  | tax => exact absurd (Instr.eq_tax hmn) htax
  | inx => exact absurd (Instr.eq_inx hmn) hinx
  | brk => rw [execute_of_brk hmn, execute_of_brk hmn]; rfl

/-- Outside the Y modes a change of Y before an instruction is that change after it (R21). -/
theorem execute_setY (c : Config) {i : Instr} (s : State) (v : Byte) (habs : i.mode ≠ .absoluteY)
    (hind : i.mode ≠ .indirectY) :
    execute c i { s with y := v } = mapNext (fun t => { t with y := v }) (execute c i s) := by
  have hea := effectiveAddress_setY c s v (Instr.mode_ne_zeroPageY i) habs hind
  cases hmn : i.mnemonic with
  | lda => rw [execute_of_lda hmn, execute_of_lda hmn]; exact lda_comm (fun t => { t with y := v }) hea rfl fun _ => rfl
  | sta => rw [execute_of_sta hmn, execute_of_sta hmn]; exact sta_comm (fun t => { t with y := v }) hea fun _ => rfl
  | tax => rw [execute_of_tax hmn, execute_of_tax hmn]; rfl
  | inx => rw [execute_of_inx hmn, execute_of_inx hmn]; rfl
  | brk => rw [execute_of_brk hmn, execute_of_brk hmn]; rfl

/-- Settles O26: a register acts through the resolver and the handlers' data only, and each clause leaves it out of
both. -/
theorem unreadRegistersDoNotMatter : Obligations.UnreadRegistersDoNotMatter := by
  intro i s v
  simp only [exec_eq_execute]
  refine ⟨fun hi => ?_, ?_, ?_, execute_setX chosenConfig s v, execute_setY chosenConfig s v⟩
  · rw [execute_of_lda hi, execute_of_lda hi]
    exact lda_setA chosenConfig i.operand s v
  · rintro (rfl | rfl) <;> rfl
  · rintro rfl
    rfl

/-! ### The bytes at PC -/

/-- Up to three bytes that stand at PC are the front of the fetch window (R60). -/
theorem fetchWindow_of_holds {s : State} {bytes : List Byte} (h : s.mem.Holds s.pc bytes) (hlen : bytes.length ≤ 3) :
    ∃ rest, s.fetchWindow = bytes ++ rest := by
  match bytes, h, hlen with
  | [], _, _ => exact ⟨_, rfl⟩
  | [_], ⟨rfl, _⟩, _ => exact ⟨_, rfl⟩
  | [_, _], ⟨rfl, rfl, _⟩, _ => exact ⟨_, rfl⟩
  | [_, _, _], ⟨rfl, rfl, rfl, _⟩, _ => exact ⟨[], by rw [BitVec.add_assoc]; rfl⟩
  | _ :: _ :: _ :: _ :: bs, _, hlen => simp only [List.length_cons] at hlen; omega

/-- Where the bytes of an instruction stand at PC, the fetch window decodes to it. -/
theorem decode_fetchWindow_of_holds {s : State} {i : Instr} (h : s.mem.Holds s.pc (encode i)) :
    ∃ rest, decode s.fetchWindow = .ok (i, rest) := by
  obtain ⟨rest, hw⟩ := fetchWindow_of_holds h (encode_length_le i)
  exact ⟨rest, hw ▸ decode_encode_append i rest⟩

/-- Settles O28: the fetch window begins with the instruction's bytes, so the step decodes and runs it. -/
theorem stepRunsTheBytesAtPC : Obligations.StepRunsTheBytesAtPC := by
  intro s i hr h
  obtain ⟨rest, hd⟩ := decode_fetchWindow_of_holds h
  exact sequencerStep_of_decoded hr hd

/-! ### PC after a step -/

/-- Settles O30: a completed step of a running core sets PC past the decoded instruction, and of the handlers only BRK's
writes the run state. -/
theorem nextPcFollowsTheInstruction : Obligations.NextPcFollowsTheInstruction := by
  intro s t hr h
  rw [step_eq_stepWith] at h
  obtain ⟨i, rest, u, hd, hu, rfl⟩ := stepWith_next_of_running hr h
  refine ⟨i, rest, hd, ?_, ?_⟩
  · rw [State.setPC_pc, BitVec.toNat_add, BitVec.toNat_ofNat, Nat.add_mod_mod]
  · exact (execute_run hu).imp_left fun hrun => hrun.trans hr

/-! ### The flags -/

/-- The decoded instruction has the mnemonic of the row of the byte at PC (R68). -/
theorem mnemonic_of_decoded {s : State} {d : Descriptor} {i : Instr} {rest : List Byte}
    (hop : decodeOpcode (s.mem.read s.pc) = some d) (hd : decode s.fetchWindow = .ok (i, rest)) :
    i.mnemonic = d.mnemonic := by
  obtain ⟨d', b1, w, hop', -, hrow⟩ := decode_ok hd
  obtain rfl : d = d' := Option.some.inj (hop.symm.trans hop')
  exact Instr.mnemonic_of_ofRow? hrow

section
variable {c : Config} {i : Instr} {s t : State} (h : execute c i s = .next t)
include h

/-- LDA leaves P updated from the new A (R110). -/
theorem execute_lda_p (hi : i.mnemonic = .lda) : t.p = updateZN t.a s.p := by
  rw [execute_of_lda hi] at h
  obtain ⟨ea, -, rfl⟩ := lda_next h
  rfl

/-- TAX and INX leave P updated from the new X (R140, R141). -/
theorem execute_tax_or_inx_p (hi : i.mnemonic = .tax ∨ i.mnemonic = .inx) : t.p = updateZN t.x s.p := by
  obtain ⟨v, rfl⟩ := execute_tax_or_inx_next hi h
  rfl

/-- STA and BRK leave P as it is (R120, R150). -/
theorem execute_sta_or_brk_p (hi : i.mnemonic = .sta ∨ i.mnemonic = .brk) : t.p = s.p := by
  rcases hi with hi | hi
  · rw [execute_of_sta hi] at h
    obtain ⟨ea, -, rfl⟩ := sta_next h
    rfl
  · rw [execute_of_brk hi] at h; cases h; rfl

/-- No handler reads P but to pass its bits on: with another P it does the same but to P (R27). -/
theorem execute_setP (q : Byte) : ∃ q', execute c i (s.setP q) = .next (t.setP q') := by
  have hea (ea : Addr) (he : effectiveAddress c i.operand s = .ok ea) :
      effectiveAddress c i.operand (s.setP q) = .ok ea := (effectiveAddress_congr c _ rfl rfl rfl rfl).trans he
  obtain ⟨hi, ea, he, rfl⟩ | ⟨hi, ea, he, rfl⟩ | ⟨rfl, rfl⟩ | ⟨rfl, rfl⟩ | ⟨rfl, rfl⟩ := execute_next h
  · rw [execute_of_lda hi, lda_of_ok (hea ea he), dataByte_congr _ _ (State.setP_mem s q)]
    exact ⟨_, rfl⟩
  · rw [execute_of_sta hi, sta_of_ok (hea ea he)]
    exact ⟨_, rfl⟩
  all_goals exact ⟨_, rfl⟩

end

/-- No step reads P but to pass its bits on: with another P it does the same but to P (R27). -/
theorem stepWith_setP {c : Config} {s t : State} (h : stepWith c s = .next t) (q : Byte) :
    ∃ q', stepWith c (s.setP q) = .next (t.setP q') := by
  obtain ⟨hr, rfl⟩ | ⟨hr, i, rest, u, hd, hu, rfl⟩ := stepWith_next h
  · exact ⟨q, by simp only [stepWith, sequencerStep, State.setP_run, hr]⟩
  · obtain ⟨q', hu'⟩ := execute_setP hu q
    exact ⟨q', stepWith_of_execute (s := s.setP q) hr hd hu'⟩

/-- Settles O42: the decoded instruction has the mnemonic of the fetched byte's row, each handler's effect on P, and a
step with another P. -/
theorem flagsFollowTheLatestResult : Obligations.FlagsFollowTheLatestResult := by
  refine ⟨fun s t d hr hop h => ?_, fun s t h => ?_, fun s t q h => ?_⟩
  · rw [step_eq_stepWith] at h
    obtain ⟨i, rest, u, hd, hu, rfl⟩ := stepWith_next_of_running hr h
    rw [← mnemonic_of_decoded hop hd]
    simp only [State.setPC_p, State.setPC_a, State.setPC_x]
    refine ⟨fun hi => ?_, fun hi => ?_, fun hi => (execute_sta_or_brk_p hu hi).trans s.fetched_p⟩
    · rw [execute_lda_p hu hi]
      exact ⟨flagZ_updateZN _ _, flagN_updateZN _ _⟩
    · rw [execute_tax_or_inx_p hu hi]
      exact ⟨flagZ_updateZN _ _, flagN_updateZN _ _⟩
  · have hp : t.p = 0 := by rw [hostReset_next h]; rfl
    rw [hp]
    decide
  · rw [step_eq_stepWith] at h
    obtain ⟨q', h'⟩ := stepWith_setP h q
    exact ⟨t.setP q', (step_eq_stepWith _).trans h', rfl⟩

/-! ### Reset -/

/-- Settles O46: `construct` has not faulted, so it accepts `reset`, whose registers are 0 and whose PC is the word read
from empty memory, 0x0000; every unlisted byte reads 0x00. -/
theorem resetStateIsTheSpecs : Obligations.ResetStateIsTheSpecs :=
  ⟨rfl, rfl, rfl, rfl, rfl, rfl, rfl, fun _ => ⟨rfl, rfl⟩⟩

end Sys2Proof.Machine
end

section
/-!
PROOFS. The memory bus (20_memory.md): the one-byte write is settled by the read-after-write law.
-/
namespace Sys2Proof.Machine

/-- Settles O6: the read-after-write law of the memory bus, which compares keys only and so asks for no canonical
form (R43). -/
theorem memWriteChangesOneCell : Obligations.MemWriteChangesOneCell := Memory.read_write

end Sys2Proof.Machine
end

section
/-!
PROOFS. The encoding family (30_encoding.md): the operand bytes a mode takes and the rows of the table, then the round
trip both ways, the decoder's refusals, and the two resolvers on the instruction fetched.
-/
namespace Sys2Proof

/-! ### The operand bytes of a mode -/

/-- The operand bytes of a mode that takes the byte `b1` (format B) or the word `w` (format W), as they stand in memory
(R60). -/
def Mode.operandOf (m : Mode) (b1 : Byte) (w : Addr) : List Byte :=
  match m.operandBytes with
  | 0 => []
  | 1 => [b1]
  | _ => [lo8 w, hi8 w]

/-- The formats I, B and W are all there are (R60, R62). -/
theorem Mode.operandBytes_cases (m : Mode) : m.operandBytes = 0 ∨ m.operandBytes = 1 ∨ m.operandBytes = 2 := by
  cases m <;> decide

/-- What `takeOperand` takes from the front is the mode's operand bytes (R60). -/
theorem takeOperand_some {m : Mode} {bytes : List Byte} {b1 : Byte} {w : Addr} {rest : List Byte}
    (h : takeOperand m bytes = some (b1, w, rest)) : bytes = m.operandOf b1 w ++ rest := by
  unfold takeOperand at h
  unfold Mode.operandOf
  split at h
  next hn => cases h; rw [hn]; rfl
  next hn => cases h; rw [hn]; rfl
  next hn => cases h; rw [hn, lo8_leWord, hi8_leWord]; rfl
  next => cases h

/-- `takeOperand` fails only where the bytes end inside the operand (R62). -/
theorem takeOperand_none {m : Mode} {bytes : List Byte} (h : takeOperand m bytes = none) :
    bytes.length < m.operandBytes := by
  unfold takeOperand at h
  obtain hn | hn | hn := m.operandBytes_cases <;> rw [hn] at h ⊢
  · cases h
  · match bytes, h with
    | [], _ => exact Nat.zero_lt_one
  · match bytes, h with
    | [], _ => exact Nat.zero_lt_two
    | [_], _ => exact Nat.one_lt_two

/-! ### The rows -/

/-- The instruction of a row has the row's mode and the operand bytes the row was given (R60, R64). -/
theorem Instr.operand_of_ofRow? {mn : Mnemonic} {m : Mode} {b1 : Byte} {w : Addr} {i : Instr}
    (h : Instr.ofRow? mn m b1 w = some i) : i.mode = m ∧ i.operand.bytes = m.operandOf b1 w := by
  unfold Instr.ofRow? at h
  split at h <;> cases h <;> exact ⟨rfl, rfl⟩

/-- A mnemonic and a mode give an instruction exactly if the mode is one of the mnemonic's (R64). -/
theorem Instr.isSome_ofRow? (mn : Mnemonic) (m : Mode) (b1 : Byte) (w : Addr) :
    (Instr.ofRow? mn m b1 w).isSome = mn.modes.contains m := by
  cases mn <;> cases m <;> rfl

/-- Every row pairs its mnemonic with one of the mnemonic's modes (R64). -/
theorem opcodeTable_modes : ∀ row ∈ opcodeTable, row.2.mnemonic.modes.contains row.2.mode = true := by decide

/-- No two rows have the same mnemonic and mode (R64). -/
theorem opcodeTable_nodup : (opcodeTable.map fun row => (row.2.mnemonic, row.2.mode)).Nodup := by decide

/-- A row of the table always gives an instruction, so the decoder never answers `badRow` (R64). -/
theorem ofRow?_of_decodeOpcode {op : Byte} {d : Descriptor} (h : decodeOpcode op = some d) (b1 : Byte) (w : Addr) :
    Instr.ofRow? d.mnemonic d.mode b1 w ≠ none := by
  rw [← Option.isSome_iff_ne_none, Instr.isSome_ofRow?]
  exact opcodeTable_modes (op, d) (decodeOpcode_mem h)

/-- The row with an instruction's mnemonic and mode is the one at the instruction's opcode byte (R64). -/
theorem eq_opcode_of_decodeOpcode {op : Byte} {d : Descriptor} {i : Instr} (h : decodeOpcode op = some d)
    (hmn : i.mnemonic = d.mnemonic) (hm : i.mode = d.mode) : op = i.opcode := by
  obtain ⟨-, -, hi⟩ := rowOfTable i
  have hrows : (op, d) = (i.opcode, i.descriptor) :=
    List.inj_on_of_nodup_map opcodeTable_nodup (decodeOpcode_mem h) (decodeOpcode_mem hi)
      (Prod.ext hmn.symm hm.symm)
  exact congrArg Prod.fst hrows

/-! ### The decoder -/

/-- Accepted bytes are the encoding of the instruction they give, followed by what is left (R60, R69). -/
theorem eq_encode_append_of_decode {bytes : List Byte} {i : Instr} {rest : List Byte}
    (h : decode bytes = .ok (i, rest)) : bytes = encode i ++ rest := by
  cases bytes with
  | nil => cases h
  | cons op bytes =>
    obtain ⟨d, b1, w, hop, htake, hrow⟩ := decode_ok h
    obtain ⟨hmode, hbytes⟩ := Instr.operand_of_ofRow? hrow
    have hopcode : op = i.opcode := eq_opcode_of_decodeOpcode hop (Instr.mnemonic_of_ofRow? hrow) hmode
    rw [encode, List.cons_append, hopcode, hbytes, takeOperand_some htake]

/-- Settles O1: no instruction is ill formed, and the round trip needs no such premise. -/
theorem decodeOfEncodeIsTheInstruction : Obligations.DecodeOfEncodeIsTheInstruction :=
  fun i rest _ => decode_encode_append i rest

/-- Settles O2: the opcode byte is the row's and the operand bytes are those taken. -/
theorem acceptedBytesAreTheEncoding : Obligations.AcceptedBytesAreTheEncoding :=
  fun _ i _ h => ⟨eq_encode_append_of_decode h, (rowOfTable i).1⟩

/-- Settles O3: each refusing branch of the decoder is one of the three, and the fourth, `badRow`, needs a row that
gives no instruction. -/
theorem decoderRefusalsAreExactlyThese : Obligations.DecoderRefusalsAreExactlyThese := by
  intro bytes e h
  cases bytes with
  | nil => cases h; exact .inl ⟨rfl, rfl⟩
  | cons op bytes =>
    simp only [decode] at h
    split at h
    next hop => cases h; exact .inr (.inl ⟨op, bytes, rfl, hop, rfl⟩)
    next d hop =>
      split at h
      next htake => cases h; exact .inr (.inr ⟨op, bytes, d, rfl, hop, takeOperand_none htake, rfl⟩)
      next b1 w _ _ =>
        split at h
        next hrow => exact absurd hrow (ofRow?_of_decodeOpcode hop b1 w)
        next => cases h

end Sys2Proof

namespace Sys2Proof.Machine

/-! ### The resolvers -/

/-- Bytes at the front of the fetch window stand in memory at PC (R60). -/
theorem holds_of_fetchWindow {s : State} {bytes rest : List Byte} (h : s.fetchWindow = bytes ++ rest) :
    s.mem.Holds s.pc bytes := by
  match bytes, h with
  | [], _ => trivial
  | [_], h => cases h; exact ⟨rfl, trivial⟩
  | [_, _], h => cases h; exact ⟨rfl, rfl, trivial⟩
  | [_, _, _], h => cases h; exact ⟨rfl, rfl, by rw [BitVec.add_assoc]; rfl, trivial⟩
  | _ :: _ :: _ :: _ :: _, h => cases h

/-- Where the operand's bytes stand at PC, the word there is the operand's (R44). -/
theorem readWord_of_holds {m : Memory} {addr w : Addr} (h : m.Holds addr [lo8 w, hi8 w]) : m.readWord addr = w := by
  obtain ⟨hlo, hhi, -⟩ := h
  rw [Memory.readWord, hlo, hhi, leWord_lo8_hi8]

/-- Where the operand's bytes stand at PC, the resolver over them is the spec's, which reads them there (R63, R89). -/
theorem effectiveAddress_eq_resolve (c : Config) (op : Operand) {s : State} (h : s.mem.Holds s.pc op.bytes) :
    effectiveAddress c op s = Pseudocode.resolve c op.mode s := by
  cases op with
  | immediate _ | noneAddressing => rfl
  | zeroPage _ | zeroPageX _ | zeroPageY _ | indirectX _ | indirectY _ => obtain ⟨rfl, -⟩ := h; rfl
  | absolute _ | absoluteX _ | absoluteY _ => obtain rfl := readWord_of_holds h; rfl

/-- Settles O16: the bytes decoded at PC are the instruction's encoding, so its operand bytes stand at PC after the
fetch, where the spec's resolver reads them. -/
theorem resolversAgreeOnTheFetchedInstruction : Obligations.ResolversAgreeOnTheFetchedInstruction := by
  refine ⟨fun c s i rest h => ?_, fun c m s a p r => by cases m <;> rfl⟩
  obtain ⟨-, hoperand⟩ := holds_of_fetchWindow (eq_encode_append_of_decode h)
  exact effectiveAddress_eq_resolve c i.operand (s := s.fetched) hoperand

end Sys2Proof.Machine
end

section
/-!
PROOFS. The sequencer and resolver family (40_sequencer_and_resolver.md): the invariant at reset and under a step, the
flag update, and the resolver's modes as numbers.
-/
namespace Sys2Proof.Machine

/-! ### The invariant -/

/-- Settles O37: a step is the fetch, a handler and the fix-up, each of which keeps the invariant. -/
theorem stepKeepsInvariant : Obligations.StepKeepsInvariant := fun _ _ => step_keeps_stateInv

/-- Settles O38: memory is empty and `P` is 0. -/
theorem resetMeetsInvariant : Obligations.ResetMeetsInvariant := ⟨reset_memory_wf, by decide⟩

/-! ### The status update -/

/-- Settles O10: the laws of Z, of N and of the reserved bits; a zero result has bit 7 clear. -/
theorem updateZNSetsTwoBits : Obligations.UpdateZNSetsTwoBits := fun r p =>
  ⟨flagZ_updateZN r p, flagN_updateZN r p, fun _ => updateZN_reserved r p, updateZN_not_both r p⟩

/-! ### The resolver's sums and words as numbers -/

/-- The word at an address as a number (R44). -/
theorem Memory.readWord_toNat (m : Memory) (addr : Addr) :
    (m.readWord addr).toNat = 256 * (m.read (addr + 1)).toNat + (m.read addr).toNat := leWord_toNat _ _

/-- An index added to an address carries into the high byte and wraps modulo 65 536 (R95, R96). -/
theorem add_zext16_toNat (w : Addr) (b : Byte) : (w + zext16 b).toNat = (w.toNat + b.toNat) % 65536 := by
  rw [BitVec.toNat_add, zext16_toNat]

/-- The address whose number is the sum of two bytes modulo 256 is their 8-bit sum, zero-extended (R92, R93, R97). -/
theorem eq_zext16_add_of_toNat {addr : Addr} {b b' : Byte} (h : addr.toNat = (b.toNat + b'.toNat) % 256) :
    addr = zext16 (b + b') := by
  apply BitVec.eq_of_toNat_eq
  rw [h, zext16_toNat, BitVec.toNat_add]

/-- Settles O12: both resolvers answer the word at PC plus the zero-extended index. -/
theorem resolverAbsoluteModes : Obligations.ResolverAbsoluteModes := by
  intro c s
  refine ⟨⟨s.mem.readWord s.pc, rfl, rfl, s.mem.readWord_toNat s.pc⟩,
    ⟨s.mem.readWord s.pc + zext16 s.x, rfl, rfl, ?_⟩, ⟨s.mem.readWord s.pc + zext16 s.y, rfl, rfl, ?_⟩⟩
  · rw [add_zext16_toNat, Memory.readWord_toNat]
  · rw [add_zext16_toNat, Memory.readWord_toNat]

/-- Settles O13: the two addresses are the zero-extended pointer and its successor, which wraps in the zero page; both
resolvers answer the word there. -/
theorem resolverIndirectX : Obligations.ResolverIndirectX := by
  intro c s ptr ptrHi hlo hhi
  have hptr : ptr = zext16 (s.mem.read s.pc + s.x) := eq_zext16_add_of_toNat hlo
  rw [hptr, zext16_toNat] at hhi
  have hptrHi : ptrHi = zext16 (s.mem.read s.pc + s.x + 1) := eq_zext16_add_of_toNat hhi
  rw [hptr, hptrHi]
  exact ⟨_, rfl, rfl, leWord_toNat _ _⟩

/-- A mnemonic with a row in mode NoneAddressing is neither LDA nor STA (R64). -/
theorem ne_lda_sta_of_noneAddressing :
    ∀ mn : Mnemonic, mn.modes.contains .noneAddressing = true → mn ≠ .lda ∧ mn ≠ .sta
  | .tax, _ | .inx, _ | .brk, _ => by decide

/-- Settles O15: the two modes' answers are the resolvers' own arms, and NoneAddressing is none of the modes that LDA
and STA have rows for (R64). -/
theorem resolverImmediateAndNone : Obligations.ResolverImmediateAndNone := by
  refine ⟨fun c s b1 => ⟨rfl, rfl⟩, fun c s => ⟨rfl, rfl⟩, fun b d hd hmode => ?_⟩
  have hrow : d.mnemonic.modes.contains d.mode = true := opcodeTable_modes (b, d) (decodeOpcode_mem hd)
  exact ne_lda_sta_of_noneAddressing d.mnemonic (hmode ▸ hrow)

end Sys2Proof.Machine
end

section
/-!
PROOFS. The load and store family (41_load_store.md): the instruction fetched from an opcode byte's row, the byte a load
reads there, a step whose handler raises, and LDA's step.
-/
namespace Sys2Proof.Machine

/-! ### The fetched instruction is the row's -/

/-- The bytes at PC decode wherever the opcode byte there has a row: the window holds the longest operand (R60, R66). -/
theorem decode_fetchWindow_of_row {s : State} {d : Descriptor} (hop : decodeOpcode (s.mem.read s.pc) = some d) :
    ∃ i rest, decode s.fetchWindow = .ok (i, rest) := by
  cases hd : decode s.fetchWindow with
  | ok ir => exact ⟨ir.1, ir.2, rfl⟩
  | error e =>
    obtain ⟨hnil, -⟩ | ⟨op, bytes, hw, hnone, -⟩ | ⟨op, bytes, d', hw, -, hshort, -⟩ :=
      decoderRefusalsAreExactlyThese _ e hd
    · exact nomatch hnil
    · cases hw
      exact absurd (hop.symm.trans hnone) (Option.some_ne_none d)
    · cases hw
      have htwo : d'.mode.operandBytes ≤ 2 := by
        obtain hn | hn | hn := d'.mode.operandBytes_cases <;> omega
      exact absurd hshort (Nat.not_lt.mpr htwo)

/-- The decoded instruction's descriptor is the row of the byte at PC (R61, R68). -/
theorem descriptor_of_decoded {s : State} {d : Descriptor} {i : Instr} {rest : List Byte}
    (hop : decodeOpcode (s.mem.read s.pc) = some d) (hd : decode s.fetchWindow = .ok (i, rest)) : i.descriptor = d := by
  obtain ⟨hopcode, -⟩ := holds_of_fetchWindow (eq_encode_append_of_decode hd)
  obtain ⟨-, -, hrow⟩ := rowOfTable i
  exact Option.some.inj (hrow.symm.trans (hopcode ▸ hop))

/-- Where the operand's bytes stand at PC, a load's byte is the one in memory at the effective address: in mode
Immediate that is the operand byte itself (R90, R110). -/
theorem dataByte_eq_read {c : Config} {op : Operand} {s : State} {ea : Addr} (hbytes : s.mem.Holds s.pc op.bytes)
    (hea : effectiveAddress c op s = .ok ea) : dataByte op ea s = s.mem.read ea := by
  cases op with
  | immediate b1 =>
    obtain ⟨hb1, -⟩ := hbytes
    cases hea
    exact hb1.symm
  | _ => rfl

/-! ### A step whose handler raises -/

/-- LDA raises wherever the resolver does (R110). -/
theorem lda_of_error {c : Config} {op : Operand} {s : State} {f : Fault} (h : effectiveAddress c op s = .error f) :
    lda c op s = .fault f := by
  simp only [lda, h]

/-- A running core whose decoded instruction raises stops with that fault (R80, R162). -/
theorem stepWith_of_execute_fault {c : Config} {s : State} {i : Instr} {rest : List Byte} {f : Fault}
    (hr : s.run = .running) (hd : decode s.fetchWindow = .ok (i, rest)) (hf : execute c i s.fetched = .fault f) :
    stepWith c s = .fault f := by
  unfold stepWith
  rw [sequencerStep_of_decoded hr hd, hf]
  rfl

/-- On an LDA or STA instruction the resolver raises only for an unsupported Indirect_Y: no such row has mode
NoneAddressing (R64, R99, R161). -/
theorem effectiveAddress_error_of_lda_or_sta {c : Config} {i : Instr} {s : State} {f : Fault}
    (hmn : i.mnemonic = .lda ∨ i.mnemonic = .sta) (h : effectiveAddress c i.operand s = .error f) :
    i.mode = .indirectY ∧ c.indirectYSupported = false ∧ f = .unsupportedAddressingMode .indirectY := by
  obtain ⟨hnone, -⟩ | ⟨⟨b1, hindY⟩, hc, hf⟩ := effectiveAddress_error h
  · obtain ⟨-, -, hrow⟩ := rowOfTable i
    obtain ⟨-, -, hrows⟩ := resolverImmediateAndNone
    obtain ⟨hlda, hsta⟩ := hrows i.opcode i.descriptor hrow (congrArg Operand.mode hnone)
    exact absurd hmn (not_or.mpr ⟨hlda, hsta⟩)
  · exact ⟨congrArg Operand.mode hindY, hc, hf⟩

/-! ### LDA's step -/

/-- Settles O17: the fetched instruction is the row's and the two resolvers agree on it, so LDA reads the byte at the
spec's effective address, or raises as the spec's resolver does. -/
theorem loadStepReadsEffectiveAddressIntoA : Obligations.LoadStepReadsEffectiveAddressIntoA := by
  refine ⟨fun c s d hr hop hlda => ?_, by decide⟩
  obtain ⟨i, rest, hd⟩ := decode_fetchWindow_of_row hop
  obtain rfl := descriptor_of_decoded hop hd
  obtain ⟨hagree, -⟩ := resolversAgreeOnTheFetchedInstruction
  have hresolve : effectiveAddress c i.operand s.fetched = Pseudocode.resolve c i.mode s.fetched := hagree c s i rest hd
  refine ⟨fun ea hea => ?_, fun f hf => ?_⟩
  · have hea' := hresolve.trans hea
    obtain ⟨-, hoperand⟩ := holds_of_fetchWindow (eq_encode_append_of_decode hd)
    have hexec := (execute_of_lda hlda).trans (lda_of_ok hea')
    rw [stepWith_of_execute hr hd hexec, dataByte_eq_read (s := s.fetched) hoperand hea']
    rfl
  · have hf' := hresolve.trans hf
    obtain ⟨hmode, hc, hfault⟩ := effectiveAddress_error_of_lda_or_sta (.inl hlda) hf'
    have hexec := (execute_of_lda hlda).trans (lda_of_error hf')
    exact ⟨hmode, hc, hfault, stepWith_of_execute_fault hr hd hexec⟩

end Sys2Proof.Machine
end

section
/-!
PROOFS. The fault family (60_exceptions.md): where a handler raises, where a running core's step faults, and that no
other condition does.
-/
namespace Sys2Proof.Machine

/-! ### Where a handler raises -/

/-- The resolver raises on mode Indirect_Y where it is not supported (R98, R161). -/
theorem effectiveAddress_of_unsupported {c : Config} {op : Operand} (hop : op.mode = .indirectY)
    (hc : c.indirectYSupported = false) (s : State) :
    effectiveAddress c op s = .error (.unsupportedAddressingMode .indirectY) := by
  cases op with
  | indirectY b1 => simp [effectiveAddress, hc]
  | _ => cases hop

/-- STA raises wherever the resolver does (R120). -/
theorem sta_of_error {c : Config} {op : Operand} {s : State} {f : Fault} (h : effectiveAddress c op s = .error f) :
    sta c op s = .fault f := by
  simp only [sta, h]

/-- Only LDA and STA have rows of mode Indirect_Y (R64). -/
theorem lda_or_sta_of_mode_indirectY {i : Instr} (h : i.mode = .indirectY) :
    i.mnemonic = .lda ∨ i.mnemonic = .sta := by
  cases i with
  | ldaIndirectY b1 => exact .inl rfl
  | staIndirectY b1 => exact .inr rfl
  | _ => cases h

/-- A handler raises exactly on an Indirect_Y row whose mode is not supported: TAX, INX and BRK never raise, LDA and STA
only where the resolver does (R161, R164). -/
theorem execute_fault_iff {c : Config} {i : Instr} {s : State} {f : Fault} :
    execute c i s = .fault f ↔
      i.mode = .indirectY ∧ c.indirectYSupported = false ∧ f = .unsupportedAddressingMode .indirectY := by
  constructor
  · intro h
    cases hmn : i.mnemonic with
    | lda => exact effectiveAddress_error_of_lda_or_sta (.inl hmn) (lda_fault (execute_of_lda hmn ▸ h))
    | sta => exact effectiveAddress_error_of_lda_or_sta (.inr hmn) (sta_fault (execute_of_sta hmn ▸ h))
    | tax => exact nomatch (execute_of_tax hmn).symm.trans h
    | inx => exact nomatch (execute_of_inx hmn).symm.trans h
    | brk => exact nomatch (execute_of_brk hmn).symm.trans h
  · rintro ⟨hmode, hc, rfl⟩
    have hea := effectiveAddress_of_unsupported hmode hc s
    obtain hlda | hsta := lda_or_sta_of_mode_indirectY hmode
    · exact (execute_of_lda hlda).trans (lda_of_error hea)
    · exact (execute_of_sta hsta).trans (sta_of_error hea)

/-! ### Where a running core's step faults -/

/-- The end of a step faults exactly as its handler did: the fix-up raises nothing (R80, R85). -/
theorem finish_fault_iff {pc0 : Addr} {n : Nat} {o : Host.Outcome State Fault Refusal} {f : Fault} :
    finish pc0 n o = .fault f ↔ o = .fault f := by
  cases o <;> simp [finish]

/-- Where the bytes at PC decode, a running core's step faults exactly where the handler raises (R80). -/
theorem stepWith_fault_iff_of_decoded {c : Config} {s : State} {i : Instr} {rest : List Byte} {f : Fault}
    (hr : s.run = .running) (hd : decode s.fetchWindow = .ok (i, rest)) :
    stepWith c s = .fault f ↔ execute c i s.fetched = .fault f := by
  unfold stepWith
  rw [sequencerStep_of_decoded hr hd, finish_fault_iff]

/-- Where the byte at PC has no row, a running core's step raises UnrecognizedOpcode (R83, R160). -/
theorem stepWith_of_no_row {c : Config} {s : State} (hr : s.run = .running)
    (hop : decodeOpcode (s.mem.read s.pc) = none) :
    stepWith c s = .fault (.unrecognizedOpcode (s.mem.read s.pc) s.pc) := by
  simp only [stepWith, sequencerStep, hr, State.fetchWindow, decode, hop]

/-- Settles O33, by whether the byte at PC has a row: without one the step raises UnrecognizedOpcode; with one it faults
exactly where the row's handler raises. -/
theorem noOtherConditionFaults : Obligations.NoOtherConditionFaults := by
  intro c s f hr
  cases hop : decodeOpcode (s.mem.read s.pc) with
  | none =>
    rw [stepWith_of_no_row hr hop, Host.Outcome.fault.injEq, eq_comm (b := f)]
    simp
  | some d =>
    obtain ⟨i, rest, hd⟩ := decode_fetchWindow_of_row hop
    obtain rfl := descriptor_of_decoded hop hd
    rw [stepWith_fault_iff_of_decoded hr hd, execute_fault_iff]
    simp [Instr.descriptor]

end Sys2Proof.Machine
end

section
/-!
PROOFS. Memory words and the canonical form (20_memory.md): what a word written leaves at every address, a word read as
a number, and that the canonical form is determined by its reads.
-/
namespace Sys2Proof.Machine

/-! ### Words -/

/-- An address and its successor differ, at 0xFFFF too (R44). -/
theorem addr_ne_succ (addr : Addr) : addr ≠ addr + 1 := by bv_omega

/-- A word written stands low byte first; every other byte reads as before (R45). -/
theorem Memory.read_writeWord (m : Memory) (addr w other : Addr) :
    (m.writeWord addr w).read other =
      if other = addr then lo8 w else if other = addr + 1 then hi8 w else m.read other := by
  rw [Memory.writeWord, Memory.read_write, Memory.read_write]
  by_cases hlo : other = addr
  · rw [if_pos hlo, if_pos hlo, if_neg (hlo ▸ addr_ne_succ addr)]
  · rw [if_neg hlo, if_neg hlo]

/-- The word written is the word read, at 0xFFFF too (R45, decision D7). -/
theorem Memory.readWord_writeWord (m : Memory) (addr w : Addr) : (m.writeWord addr w).readWord addr = w := by
  rw [Memory.readWord, Memory.read_writeWord, Memory.read_writeWord, if_pos rfl, if_neg (addr_ne_succ addr).symm,
    if_pos rfl, leWord_lo8_hi8]

/-- Settles O8: the two bytes written are the word's, and no other address is written. -/
theorem writeWordThenReadWord : Obligations.WriteWordThenReadWord := by
  intro m addr w
  refine ⟨m.readWord_writeWord addr w, fun other hlo hhi => ?_⟩
  rw [Memory.read_writeWord, if_neg hlo, if_neg hhi]

/-- Settles O7: the word as a number, at any address and at 0xFFFF, whose successor is 0x0000. -/
theorem readWordIsLittleEndian : Obligations.ReadWordIsLittleEndian :=
  fun m addr => ⟨m.readWord_toNat addr, m.readWord_toNat 0xFFFF⟩

/-! ### The canonical form -/

/-- What the canonical form says of a first cell: its key's bounds, that it is not 0x00, and the rest from the next key
on. -/
theorem wfFrom_cons {lo k : Nat} {v : Byte} {rest : List Host.Cell} (h : wfFrom lo ((k, v) :: rest) = true) :
    k < 65536 ∧ v ≠ unlistedByte ∧ wfFrom k ((k, v) :: rest) = true ∧ wfFrom (k + 1) rest = true := by
  simp only [wfFrom, Bool.and_eq_true, decide_eq_true_eq, bne_iff_ne] at h ⊢
  obtain ⟨⟨⟨-, hk⟩, hv⟩, hrest⟩ := h
  exact ⟨hk, hv, ⟨⟨⟨le_rfl, hk⟩, hv⟩, hrest⟩, hrest⟩

/-- A key below the first one allowed is not listed. -/
theorem lookupCell_of_lt {lo k : Nat} {m : List Host.Cell} (hm : wfFrom lo m = true) (hk : k < lo) :
    lookupCell m k = unlistedByte := by
  induction m generalizing lo with
  | nil => rfl
  | cons c rest ih =>
    obtain ⟨j, v⟩ := c
    simp only [wfFrom, Bool.and_eq_true, decide_eq_true_eq] at hm
    obtain ⟨⟨⟨hlo, -⟩, -⟩, hrest⟩ := hm
    rw [lookupCell, if_neg (by omega)]
    exact ih hrest (by omega)

/-- A key that reads other than 0x00 is not below the first one allowed. -/
theorem le_of_lookupCell_ne {lo k : Nat} {m : List Host.Cell} (hm : wfFrom lo m = true)
    (h : lookupCell m k ≠ unlistedByte) : lo ≤ k :=
  Nat.le_of_not_lt fun hk => h (lookupCell_of_lt hm hk)

/-- Two lists of cells in canonical form that read alike are equal: each one's first key reads other than 0x00, so it is
at least the other's, and what follows the common first cell reads alike again. -/
theorem eq_of_wfFrom_of_lookupCell_eq {lo : Nat} {m m' : List Host.Cell} (hm : wfFrom lo m = true)
    (hm' : wfFrom lo m' = true) (h : ∀ k < 65536, lookupCell m k = lookupCell m' k) : m = m' := by
  induction m generalizing lo m' with
  | nil =>
    cases m' with
    | nil => rfl
    | cons c' rest' =>
      obtain ⟨hk', hv', -, -⟩ := wfFrom_cons hm'
      exact absurd (by simpa [lookupCell] using (h _ hk').symm) hv'
  | cons c rest ih =>
    obtain ⟨k, v⟩ := c
    obtain ⟨hk, hv, hwf, hrest⟩ := wfFrom_cons hm
    have hread := h k hk
    cases m' with
    | nil => exact absurd (by simpa [lookupCell] using hread) hv
    | cons c' rest' =>
      obtain ⟨k', v'⟩ := c'
      obtain ⟨hk', hv', hwf', hrest'⟩ := wfFrom_cons hm'
      have hread' := h k' hk'
      have hle : k' ≤ k := le_of_lookupCell_ne hwf' (by rw [← hread]; simpa [lookupCell] using hv)
      have hge : k ≤ k' := le_of_lookupCell_ne hwf (by rw [hread']; simpa [lookupCell] using hv')
      obtain rfl : k = k' := le_antisymm hge hle
      obtain rfl : v = v' := by simpa [lookupCell] using hread
      have htail : ∀ j < 65536, lookupCell rest j = lookupCell rest' j := by
        intro j hj
        by_cases hjk : k = j
        · rw [lookupCell_of_lt hrest (by omega), lookupCell_of_lt hrest' (by omega)]
        · simpa [lookupCell, hjk] using h j hj
      rw [ih hrest hrest' htail]

/-- Settles O9: equal reads at every address are equal lookups at every key below 65 536. -/
theorem canonicalMemoriesThatReadAlikeAreEqual : Obligations.CanonicalMemoriesThatReadAlikeAreEqual := by
  intro m m' hm hm' h
  refine eq_of_wfFrom_of_lookupCell_eq hm hm' fun k hk => ?_
  have hread := h (BitVec.ofNat 16 k)
  rwa [Memory.read, Memory.read, BitVec.toNat_ofNat, Nat.mod_eq_of_lt hk] at hread

end Sys2Proof.Machine
end

section
/-!
PROOFS. The table's rows, words written out from it, the zero-page and Indirect_Y modes as numbers, and each meaning in
full (30_encoding.md, 40_sequencer_and_resolver.md, 41_load_store.md to 43_break.md).
-/
namespace Sys2Proof

/-! ### The opcode table -/

/-- A byte has no row exactly if it is none of the table's opcode bytes (R66, R69). -/
theorem decodeOpcode_eq_none_iff (b : Byte) : decodeOpcode b = none ↔ b ∉ opcodeTable.map Prod.fst := by
  simp only [decodeOpcode, Option.map_eq_none_iff, List.find?_eq_none, beq_iff_eq, List.mem_map, not_exists, not_and]

/-- Settles O4: each row is its own instruction's, and a byte with no row is none of the 18. -/
theorem opcodeTableRows : Obligations.OpcodeTableRows :=
  ⟨rfl, rfl, rfl, rfl, rfl, rfl, rfl, rfl, rfl, rfl, rfl, rfl, rfl, rfl, rfl, rfl, rfl, rfl, decodeOpcode_eq_none_iff⟩

/-- Settles O5: each byte sequence is the encoding of its instruction, followed by what is left. -/
theorem writtenOutWordsDecode : Obligations.WrittenOutWordsDecode :=
  ⟨decode_encode_append (.ldaImmediate 0x05) [], decode_encode_append (.ldaAbsoluteX 0x01FF) [],
    decode_encode_append (.staAbsolute 0x0200) [], decode_encode_append (.staIndirectY 0x20) [0xAA],
    decode_encode_append .tax [], decode_encode_append .inx [], decode_encode_append .brk [0x12]⟩

/-- No mnemonic has a row in mode ZeroPage_Y (R93, conflict C2). -/
theorem Mnemonic.not_modes_zeroPageY (mn : Mnemonic) : mn.modes.contains .zeroPageY = false := by
  cases mn <;> rfl

/-- BRK is its mnemonic's only row (R64). -/
theorem Instr.eq_brk {i : Instr} (h : i.mnemonic = .brk) : i = .brk := by
  cases i with
  | brk => rfl
  | _ => exact nomatch h

/-- STA has no row in mode Immediate (R65, decision D5). -/
theorem Instr.mode_ne_immediate_of_sta {i : Instr} (h : i.mnemonic = .sta) : i.mode ≠ .immediate := by
  intro hmode
  cases i with
  | ldaImmediate b1 => cases h
  | _ => cases hmode

end Sys2Proof

namespace Sys2Proof.Machine

/-! ### The resolver's modes as numbers -/

/-- Settles O11: the zero-extended 8-bit sum; and no row pairs a mnemonic with mode ZeroPage_Y. -/
theorem resolverZeroPageModes : Obligations.ResolverZeroPageModes := by
  refine ⟨fun c s => ⟨⟨zext16 (s.mem.read s.pc), rfl, rfl, zext16_toNat _⟩,
    ⟨zext16 (s.mem.read s.pc + s.x), rfl, rfl, ?_⟩, ⟨zext16 (s.mem.read s.pc + s.y), rfl, rfl, ?_⟩⟩,
    fun b d hd hmode => ?_⟩
  · rw [zext16_toNat, BitVec.toNat_add]
  · rw [zext16_toNat, BitVec.toNat_add]
  · have hrow : d.mnemonic.modes.contains d.mode = true := opcodeTable_modes (b, d) (decodeOpcode_mem hd)
    rw [hmode, Mnemonic.not_modes_zeroPageY] at hrow
    cases hrow

/-- Settles O14: supported, the word at the pointer, whose high byte's address wraps in the zero page, plus Y; not
supported, both resolvers raise. -/
theorem resolverIndirectY : Obligations.ResolverIndirectY := by
  refine ⟨fun s ptrHi hhi => ?_, fun s => ⟨rfl, rfl⟩, rfl⟩
  have hptrHi : ptrHi = zext16 (s.mem.read s.pc + 1) := eq_zext16_add_of_toNat hhi
  refine ⟨s.mem.readZeroPageWord (s.mem.read s.pc) + zext16 s.y, rfl, rfl, ?_⟩
  rw [add_zext16_toNat, Memory.readZeroPageWord, leWord_toNat, hptrHi]

/-! ### The meanings, in full -/

section
variable {i : Instr} {s : State} {ea : Addr}

/-- An LDA form completes wherever the resolver answers, with the byte there in A and P updated from it (R110). -/
theorem exec_of_lda (hmn : i.mnemonic = .lda) (hea : effectiveAddress chosenConfig i.operand s = .ok ea) :
    exec i s = .next ((s.setA (dataByte i.operand ea s)).setZN (dataByte i.operand ea s)) := by
  rw [exec_eq_execute, execute_of_lda hmn, lda_of_ok hea]

/-- A STA form completes wherever the resolver answers, with A stored there (R120). -/
theorem exec_of_sta (hmn : i.mnemonic = .sta) (hea : effectiveAddress chosenConfig i.operand s = .ok ea) :
    exec i s = .next (s.store ea s.a) := by
  rw [exec_eq_execute, execute_of_sta hmn, sta_of_ok hea]

end

/-- Settles O20: each form is a load, and its mode resolves to the address stated. -/
theorem loadMeaningsComplete : Obligations.LoadMeaningsComplete := by
  intro s b1 w
  refine ⟨exec_of_lda rfl rfl, exec_of_lda rfl rfl, exec_of_lda rfl rfl, exec_of_lda rfl rfl, exec_of_lda rfl rfl,
    exec_of_lda rfl rfl, ?_, ?_⟩
  · rintro ea rfl
    exact exec_of_lda rfl rfl
  · rintro ea rfl
    exact exec_of_lda rfl rfl

/-- Settles O21: each form is a store, and its mode resolves to the address stated. -/
theorem storeMeaningsComplete : Obligations.StoreMeaningsComplete := by
  intro s b1 w
  refine ⟨exec_of_sta rfl rfl, exec_of_sta rfl rfl, exec_of_sta rfl rfl, exec_of_sta rfl rfl, exec_of_sta rfl rfl, ?_, ?_⟩
  · rintro ea rfl
    exact exec_of_sta rfl rfl
  · rintro ea rfl
    exact exec_of_sta rfl rfl

/-- Settles O22: the three handlers that resolve no address. -/
theorem registerMeaningsComplete : Obligations.RegisterMeaningsComplete := by
  intro s
  rw [exec_eq_execute, exec_eq_execute, exec_eq_execute]
  exact ⟨execute_of_tax rfl, execute_of_inx rfl, execute_of_brk rfl⟩

end Sys2Proof.Machine
end

section
/-!
PROOFS. One step of a running core (40_sequencer_and_resolver.md, 60_exceptions.md): the row's instruction and its
resolver, a store's step, the spec's pseudocode, the fix-up, faults, no refusal, and the reserved bits of P.
-/
namespace Sys2Proof.Machine

/-! ### The row's instruction -/

/-- Where the byte at PC has a row, an instruction of that row is decoded there (R61, R68). -/
theorem decoded_of_row {s : State} {d : Descriptor} (hop : decodeOpcode (s.mem.read s.pc) = some d) :
    ∃ i rest, decode s.fetchWindow = .ok (i, rest) ∧ i.descriptor = d := by
  obtain ⟨i, rest, hd⟩ := decode_fetchWindow_of_row hop
  exact ⟨i, rest, hd, descriptor_of_decoded hop hd⟩

section
variable {c : Config} {s : State} {i : Instr} {rest : List Byte} (hd : decode s.fetchWindow = .ok (i, rest))
include hd

/-- The decoded instruction's operand bytes stand at PC after the fetch (R60, R82). -/
theorem operand_holds_of_decoded : s.fetched.mem.Holds s.fetched.pc i.operand.bytes := by
  obtain ⟨-, hoperand⟩ := holds_of_fetchWindow (eq_encode_append_of_decode hd)
  exact hoperand

/-- The two resolvers agree on the instruction decoded at PC (R89). -/
theorem effectiveAddress_of_decoded (c : Config) :
    effectiveAddress c i.operand s.fetched = Pseudocode.resolve c i.mode s.fetched :=
  effectiveAddress_eq_resolve c i.operand (operand_holds_of_decoded hd)

/-- A running core's step on a STA row whose mode resolves: A to the effective address, PC past the instruction (R86,
R120). -/
theorem stepWith_of_sta {ea : Addr} (hr : s.run = .running) (hsta : i.mnemonic = .sta)
    (hea : effectiveAddress c i.operand s.fetched = .ok ea) :
    stepWith c s = .next ((s.store ea s.a).setPC (s.pc + BitVec.ofNat 16 i.length)) := by
  rw [stepWith_of_execute hr hd ((execute_of_sta hsta).trans (sta_of_ok hea))]
  rfl

end

/-- Settles O18: the fetched instruction is the row's and the two resolvers agree on it, so STA writes A at the spec's
effective address, or raises as the spec's resolver does. -/
theorem storeStepWritesAToEffectiveAddress : Obligations.StoreStepWritesAToEffectiveAddress := by
  refine ⟨fun c s d hr hop hsta => ?_, by decide, by decide⟩
  obtain ⟨i, rest, hd, rfl⟩ := decoded_of_row hop
  have hresolve : effectiveAddress c i.operand s.fetched = Pseudocode.resolve c i.mode s.fetched :=
    effectiveAddress_of_decoded hd c
  refine ⟨Instr.mode_ne_immediate_of_sta hsta, fun ea hea => ?_, fun f hf => ?_⟩
  · exact ⟨stepWith_of_sta hd hr hsta (hresolve.trans hea), fun addr => s.mem.read_write ea addr s.a⟩
  · have hf' := hresolve.trans hf
    obtain ⟨hmode, hc, hfault⟩ := effectiveAddress_error_of_lda_or_sta (.inr hsta) hf'
    exact ⟨hmode, hc, hfault, stepWith_of_execute_fault hr hd ((execute_of_sta hsta).trans (sta_of_error hf'))⟩

/-- Settles O19: each of the three mnemonics has one row, one byte long, whose handler always completes. -/
theorem transferIncrementBreakSteps : Obligations.TransferIncrementBreakSteps := by
  intro c s d hr hop
  obtain ⟨i, rest, hd, rfl⟩ := decoded_of_row hop
  refine ⟨fun htax => ?_, fun hinx => ⟨s.x + 1, BitVec.toNat_add s.x 1, ?_⟩, fun hbrk => ?_⟩
  · obtain rfl := Instr.eq_tax htax
    exact stepWith_of_execute hr hd (execute_of_tax rfl)
  · obtain rfl := Instr.eq_inx hinx
    exact stepWith_of_execute hr hd (execute_of_inx rfl)
  · obtain rfl := Instr.eq_brk hbrk
    exact stepWith_of_execute hr hd (execute_of_brk rfl)

/-! ### The spec's pseudocode -/

/-- Where the byte at PC has a row, the pseudocode's step is the end of the row's handler (R80). -/
theorem pseudocode_step_of_row {c : Config} {s : State} {d : Descriptor}
    (hop : decodeOpcode (s.mem.read s.pc) = some d) :
    Pseudocode.step c s =
      finish (s.pc + 1) d.length (Pseudocode.executeMode c d.mnemonic d.mode s.fetched) := by
  have hfetched : ({ s with pc := s.pc + 1 } : State) = s.fetched := rfl
  simp only [Pseudocode.step, hop, hfetched]
  cases Pseudocode.executeMode c d.mnemonic d.mode s.fetched with
  | fault f => rfl
  | refused r => rfl
  | next u =>
    simp only [finish, fixUp]
    split_ifs <;> rfl

/-- Where the operand's bytes stand at PC, LDA is the spec's, which reads its byte through the bus (R110). -/
theorem lda_eq_pseudocode (c : Config) (op : Operand) {s : State} (h : s.mem.Holds s.pc op.bytes) :
    lda c op s = Pseudocode.lda c op.mode s := by
  have hresolve := effectiveAddress_eq_resolve c op h
  cases hea : effectiveAddress c op s with
  | error f => simp only [lda_of_error hea, Pseudocode.lda, ← hresolve, hea]
  | ok ea =>
    simp only [lda_of_ok hea, Pseudocode.lda, ← hresolve, hea, dataByte_eq_read h hea]
    rfl

/-- Where the operand's bytes stand at PC, STA is the spec's (R120). -/
theorem sta_eq_pseudocode (c : Config) (op : Operand) {s : State} (h : s.mem.Holds s.pc op.bytes) :
    sta c op s = Pseudocode.sta c op.mode s := by
  have hresolve := effectiveAddress_eq_resolve c op h
  cases hea : effectiveAddress c op s with
  | error f => simp only [sta_of_error hea, Pseudocode.sta, ← hresolve, hea]
  | ok ea =>
    simp only [sta_of_ok hea, Pseudocode.sta, ← hresolve, hea]
    rfl

/-- Where the operand's bytes stand at PC, the handler of an instruction is the spec's dispatch on its mnemonic and mode
(R84). -/
theorem execute_eq_pseudocode (c : Config) (i : Instr) {s : State} (h : s.mem.Holds s.pc i.operand.bytes) :
    execute c i s = Pseudocode.executeMode c i.mnemonic i.mode s := by
  cases hmn : i.mnemonic with
  | lda => exact (execute_of_lda hmn).trans (lda_eq_pseudocode c i.operand h)
  | sta => exact (execute_of_sta hmn).trans (sta_eq_pseudocode c i.operand h)
  | tax => exact execute_of_tax hmn
  | inx => exact execute_of_inx hmn
  | brk => exact execute_of_brk hmn

/-- A running core's step is the spec's, at either value of the open parameter: both raise on a byte with no row, and on
a row run the same handler and end alike (R80). -/
theorem stepWith_eq_pseudocode (c : Config) {s : State} (hr : s.run = .running) :
    stepWith c s = Pseudocode.step c s := by
  cases hop : decodeOpcode (s.mem.read s.pc) with
  | none => simp only [stepWith_of_no_row hr hop, Pseudocode.step, hop]
  | some d =>
    obtain ⟨i, rest, hd, rfl⟩ := decoded_of_row hop
    have hexec := execute_eq_pseudocode c i (operand_holds_of_decoded hd)
    rw [pseudocode_step_of_row hop, stepWith, sequencerStep_of_decoded hr hd, hexec]
    rfl

/-- Settles O29: for either value of the parameter, and for `step` at the chosen one. -/
theorem stepIsTheSpecsPseudocode : Obligations.StepIsTheSpecsPseudocode :=
  ⟨fun c _ hr => stepWith_eq_pseudocode c hr,
    fun s hr => (step_eq_stepWith s).trans (stepWith_eq_pseudocode chosenConfig hr)⟩

/-! ### The fix-up -/

/-- Settles O27: the step is the end of the decoded instruction's handler, whose three outcomes end as stated. -/
theorem stepRunsDecodedInstruction : Obligations.StepRunsDecodedInstruction := by
  intro s i rest hr hd _
  have hfetched : ({ s with pc := s.pc + 1 } : State) = s.fetched := rfl
  rw [step, sequencerStep_of_decoded hr hd, hfetched]
  cases exec i s.fetched <;> rfl

/-- Settles O31: the fix-up skips the operand bytes exactly where the handler left PC. -/
theorem fixUpTestsLiteralEquality : Obligations.FixUpTestsLiteralEquality := by
  intro handler s u i rest hr hd hu hrun
  have hnot : u.run ≠ .halted := by rw [hrun]; exact nofun
  have hstep : sequencerStep handler s = .next (fixUp (s.pc + 1) i.length u) := by
    rw [sequencerStep_of_decoded hr hd]
    exact (congrArg (finish (s.pc + 1) i.length) hu).trans (congrArg _ (if_neg hnot))
  refine ⟨fun hpc => ?_, fun hpc => ?_⟩
  · rw [hstep, fixUp_eq, if_pos hpc, hpc, pc_after_operands]
    rfl
  · rw [hstep, fixUp_eq, if_neg hpc]
    rfl

/-! ### Faults -/

/-- Settles O32: the decoder refuses the byte at PC, for either value of the parameter. -/
theorem unrecognizedOpcodeFaults : Obligations.UnrecognizedOpcodeFaults :=
  fun _ s hr hop => ⟨stepWith_of_no_row hr hop, (step_eq_stepWith s).trans (stepWith_of_no_row hr hop), rfl⟩

/-- Settles O34: both rows have the mode that is not supported. -/
theorem unsupportedIndirectYFaults : Obligations.UnsupportedIndirectYFaults :=
  fun _ _ _ hc => ⟨execute_fault_iff.mpr ⟨rfl, hc, rfl⟩, execute_fault_iff.mpr ⟨rfl, hc, rfl⟩, rfl⟩

/-- Settles O35: the run takes the faulting step and ends with the state that the fault leaves. -/
theorem faultIsPrecise : Obligations.FaultIsPrecise := by
  intro c n s f hr hf
  rw [runBy_step hr, hf]
  rfl

/-! ### Nothing is refused -/

/-- No handler refuses: LDA and STA complete or raise as the resolver does, the others complete. -/
theorem execute_ne_refused (c : Config) (i : Instr) (s : State) (r : Refusal) : execute c i s ≠ .refused r := by
  cases hmn : i.mnemonic with
  | lda =>
    rw [execute_of_lda hmn]
    cases hea : effectiveAddress c i.operand s with
    | error f => rw [lda_of_error hea]; exact nofun
    | ok ea => rw [lda_of_ok hea]; exact nofun
  | sta =>
    rw [execute_of_sta hmn]
    cases hea : effectiveAddress c i.operand s with
    | error f => rw [sta_of_error hea]; exact nofun
    | ok ea => rw [sta_of_ok hea]; exact nofun
  | tax => rw [execute_of_tax hmn]; exact nofun
  | inx => rw [execute_of_inx hmn]; exact nofun
  | brk => rw [execute_of_brk hmn]; exact nofun

/-- A halted core's step answers the same state (R152; log entry 3). -/
theorem stepWith_of_halted {c : Config} {s : State} (h : s.run = .halted) : stepWith c s = .next s := by
  simp only [stepWith, sequencerStep, h]

/-- A faulted core's step answers the same fault again (R162; log entry 4). -/
theorem stepWith_of_faulted {c : Config} {s : State} {f : Fault} (h : s.run = .faulted f) :
    stepWith c s = .fault f := by
  simp only [stepWith, sequencerStep, h]

/-- No step refuses, at either value of the open parameter (R10). -/
theorem stepWith_ne_refused (c : Config) (s : State) (r : Refusal) : stepWith c s ≠ .refused r := by
  cases hr : s.run with
  | halted => rw [stepWith_of_halted hr]; exact nofun
  | faulted f => rw [stepWith_of_faulted hr]; exact nofun
  | running =>
    cases hop : decodeOpcode (s.mem.read s.pc) with
    | none => rw [stepWith_of_no_row hr hop]; exact nofun
    | some d =>
      obtain ⟨i, rest, hd, -⟩ := decoded_of_row hop
      cases hu : execute c i s.fetched with
      | next u => rw [stepWith_of_execute hr hd hu]; exact nofun
      | fault f => rw [stepWith_of_execute_fault hr hd hu]; exact nofun
      | refused r' => exact absurd hu (execute_ne_refused c i _ r')

/-- Settles O36: no handler refuses, so neither does a step. -/
theorem nothingIsRefused : Obligations.NothingIsRefused := by
  refine ⟨fun i s r => ?_, fun c s r => ⟨stepWith_ne_refused c s r, ?_⟩⟩
  · rw [exec_eq_execute]
    exact execute_ne_refused chosenConfig i s r
  · rw [step_eq_stepWith]
    exact stepWith_ne_refused chosenConfig s r

/-! ### The reserved bits of P -/

/-- Every handler passes the reserved bits of P on: P is updated by `UpdateZN`, or not written (R26). -/
theorem execute_reserved {c : Config} {i : Instr} {s t : State} (h : execute c i s = .next t) {k : Nat} (h1 : k ≠ 1)
    (h7 : k ≠ 7) : t.p.getLsbD k = s.p.getLsbD k := by
  cases hmn : i.mnemonic with
  | lda => rw [execute_lda_p h hmn, updateZN_reserved _ _ h1 h7]
  | tax => rw [execute_tax_or_inx_p h (.inl hmn), updateZN_reserved _ _ h1 h7]
  | inx => rw [execute_tax_or_inx_p h (.inr hmn), updateZN_reserved _ _ h1 h7]
  | sta => rw [execute_sta_or_brk_p h (.inl hmn)]
  | brk => rw [execute_sta_or_brk_p h (.inr hmn)]

/-- Settles O40: a completed step's handler keeps the reserved bits, and an accepted reset clears P. -/
theorem reservedStatusBitsPreserved : Obligations.ReservedStatusBitsPreserved := by
  refine ⟨fun s t k h h1 h7 => ?_, fun s t h => by rw [hostReset_next h]; rfl⟩
  rw [step_eq_stepWith] at h
  obtain ⟨-, rfl⟩ | ⟨-, i, rest, u, -, hu, rfl⟩ := stepWith_next h
  · rfl
  · exact execute_reserved hu h1 h7

/-! ### A store and the next fetch -/

/-- Settles O45: STA's step leaves the memory written at the effective address, and the next window reads it. -/
theorem storeIsSeenByTheNextFetch : Obligations.StoreIsSeenByTheNextFetch := by
  intro s i rest ea hr hd hsta hea
  refine ⟨_, (step_eq_stepWith s).trans (stepWith_of_sta hd hr hsta hea), rfl, ?_⟩
  simp only [State.fetchWindow, State.setPC_mem, State.store_mem, Memory.read_write, List.map]

end Sys2Proof.Machine
end

section
/-!
PROOFS. The host's transactions (70_reset_and_hazards.md): a reset twice, the image and the vector that `load` leaves,
`load_and_run`, a run with more fuel, and a core that is halted or faulted.
-/
namespace Sys2Proof.Machine

/-! ### Reset -/

/-- A core that has not faulted accepts a reset (R183, R188). -/
theorem hostReset_of_not_faulted {s : State} (hf : ∀ f, s.run ≠ .faulted f) : hostReset s = .next s.afterReset :=
  State.unlessFaulted_of_not_faulted hf _

/-- Settles O47: a reset keeps memory, and with it the vector, and leaves a Running core, which accepts the next. -/
theorem resetIsIdempotent : Obligations.ResetIsIdempotent := by
  intro s s1 h
  obtain rfl := hostReset_next h
  exact ⟨rfl, rfl, rfl, rfl, rfl, rfl, rfl, hostReset_of_not_faulted fun f => nofun⟩

/-! ### Load -/

/-- A copy of at most 65 536 bytes reads as the bytes on the addresses from its base on, modulo 65 536, and as before
on every other (R181). -/
theorem Memory.read_copy (m : Memory) (base : Addr) (bytes : List Byte) (hlen : bytes.length ≤ 65536) (addr : Addr) :
    (m.copy base bytes).read addr =
      if (addr - base).toNat < bytes.length then bytes.getD (addr - base).toNat 0x00 else m.read addr := by
  induction bytes generalizing m base with
  | nil => rfl
  | cons b bs ih =>
    simp only [List.length_cons] at hlen ⊢
    rw [Memory.copy, ih (m.write base b) (base + 1) (by omega), Memory.read_write]
    by_cases haddr : addr = base
    · have hlast : (base - (base + 1)).toNat = 65535 := by bv_omega
      rw [haddr, hlast, BitVec.sub_self, if_neg (by omega), if_pos rfl, if_pos (by simp)]
      rfl
    · have hsucc : (addr - base).toNat = (addr - (base + 1)).toNat + 1 := by bv_omega
      simp only [hsucc, Nat.add_lt_add_iff_right, List.getD_cons_succ, if_neg haddr]

section
variable {s : State} (hf : ∀ f, s.run ≠ .faulted f) {image : List Byte}
include hf

/-- A core that has not faulted accepts an image of at most 0x8000 bytes (R181, R188). -/
theorem hostLoad_of_le (h : image.length ≤ 0x8000) : hostLoad image s = .next (s.loaded image) :=
  (State.unlessFaulted_of_not_faulted hf _).trans (if_pos h)

/-- A core that has not faulted refuses a longer image, by its length (R181, decision D13). -/
theorem hostLoad_of_gt (h : 0x8000 < image.length) : hostLoad image s = .refused (.imageTooLong image.length) :=
  (State.unlessFaulted_of_not_faulted hf _).trans (if_neg (Nat.not_le.mpr h))

end

/-- What `load` leaves in memory: the vector, then the image from 0x8000 on, then what was there (R181, R182). -/
theorem State.read_loaded (s : State) {image : List Byte} (h : image.length ≤ 0x8000) (addr : Addr) :
    (s.loaded image).mem.read addr =
      if addr = 0xFFFC then 0x00
      else if addr = 0xFFFD then 0x80
      else if 0x8000 ≤ addr.toNat ∧ addr.toNat < 0x8000 + image.length then image.getD (addr.toNat - 0x8000) 0x00
      else s.mem.read addr := by
  have hvector : (s.loaded image).mem.read addr =
      if addr = 0xFFFC then 0x00 else if addr = 0xFFFD then 0x80 else (s.mem.copy progBase image).read addr :=
    Memory.read_writeWord (s.mem.copy progBase image) resetVector progBase addr
  rw [hvector, Memory.read_copy _ _ _ (by omega)]
  have hbase : progBase.toNat = 0x8000 := rfl
  by_cases hge : 0x8000 ≤ addr.toNat
  · have hoffset : (addr - progBase).toNat = addr.toNat - 0x8000 := by bv_omega
    have hiff : addr.toNat - 0x8000 < image.length ↔ 0x8000 ≤ addr.toNat ∧ addr.toNat < 0x8000 + image.length := by
      omega
    simp only [hoffset, hiff]
  · have hoffset : ¬ (addr - progBase).toNat < image.length := by bv_omega
    simp only [hoffset, hge, false_and, if_false]

/-- Settles O48: the accepted load writes memory only, the image first and then the vector. -/
theorem loadPlacesImageAndVector : Obligations.LoadPlacesImageAndVector := by
  intro s image hf
  exact ⟨fun hle => ⟨s.loaded image, hostLoad_of_le hf hle, rfl, rfl, rfl, rfl, rfl, rfl, s.read_loaded hle⟩,
    hostLoad_of_gt hf⟩

/-- After a load, `reset` starts at 0x8000, the vector that the load left (R181, R183). -/
theorem State.afterReset_loaded_pc (s : State) (image : List Byte) : (s.loaded image).afterReset.pc = 0x8000 :=
  Memory.readWord_writeWord (s.mem.copy progBase image) resetVector progBase

/-- `load_and_run` gives what `load` gives where that refuses (R187). -/
theorem hostLoadAndRun_of_refused {fuel : Nat} {image : List Byte} {s : State} {r : Refusal}
    (h : hostLoad image s = .refused r) : hostLoadAndRun fuel image s = .refused r := by
  simp only [hostLoadAndRun, h]

/-- Settles O49: the definition's three transactions in sequence, each accepted or refused as on its own. -/
theorem loadAndRunIsLoadResetRun : Obligations.LoadAndRunIsLoadResetRun := by
  intro fuel image s
  refine ⟨fun s1 s2 hl hr => ⟨?_, ?_⟩, fun r => hostLoadAndRun_of_refused, fun hf => ⟨fun hle => ?_, fun hgt => ?_⟩⟩
  · simp only [hostLoadAndRun, hl, hr]
  · obtain ⟨-, rfl⟩ := hostLoad_next hl
    obtain rfl := hostReset_next hr
    exact s.afterReset_loaded_pc image
  · exact ⟨_, _, hostLoad_of_le hf hle, hostReset_of_not_faulted hf⟩
  · exact hostLoadAndRun_of_refused (hostLoad_of_gt hf hgt)

/-! ### A run's fuel -/

/-- How a run ends that has, where its fuel is used up, the continuation `k` (R186). -/
def RunResult.goOn (k : State → RunResult) : RunResult → RunResult
  | .unfinished s => k s
  | r => r

/-- The run state of the state a run ended in is the one its result says (R185, R186). -/
def RunResult.RunStateAgrees : RunResult → Prop
  | .halted s => s.run = .halted
  | .fault f s => s.run = .faulted f
  | .unfinished s => s.run = .running
  | .refused _ => True

/-- A run with `k` more fuel is the run itself, gone on with from where its fuel was used up (R186, decision D21). -/
theorem runBy_add (stepOf : State → Host.Outcome State Fault Refusal) (n k : Nat) (s : State) :
    runBy stepOf (n + k) s = (runBy stepOf n s).goOn (runBy stepOf k) := by
  induction n generalizing s with
  | zero =>
    cases hr : s.run with
    | running => rw [runBy_no_fuel hr, Nat.zero_add]; rfl
    | halted => rw [runBy_halted hr, runBy_halted hr]; rfl
    | faulted f => rw [runBy_faulted hr, runBy_faulted hr]; rfl
  | succ n ih =>
    cases hr : s.run with
    | running =>
      rw [Nat.add_right_comm n 1 k, runBy_step hr, runBy_step hr]
      cases stepOf s with
      | next t => exact ih t
      | fault f => rfl
      | refused r => rfl
    | halted => rw [runBy_halted hr, runBy_halted hr]; rfl
    | faulted f => rw [runBy_faulted hr, runBy_faulted hr]; rfl

/-- However a run ends, the run state it leaves is the one its result says. -/
theorem runBy_runStateAgrees (stepOf : State → Host.Outcome State Fault Refusal) (n : Nat) (s : State) :
    (runBy stepOf n s).RunStateAgrees := by
  induction n generalizing s with
  | zero =>
    cases hr : s.run with
    | running => rw [runBy_no_fuel hr]; exact hr
    | halted => rw [runBy_halted hr]; exact hr
    | faulted f => rw [runBy_faulted hr]; trivial
  | succ n ih =>
    cases hr : s.run with
    | running =>
      rw [runBy_step hr]
      cases stepOf s with
      | next t => exact ih t
      | fault f => rfl
      | refused r => trivial
    | halted => rw [runBy_halted hr]; exact hr
    | faulted f => rw [runBy_faulted hr]; trivial

/-- Settles O50: a run with more fuel goes on only from an unfinished one, and each result's run state is its own. -/
theorem runResultDoesNotDependOnFuel : Obligations.RunResultDoesNotDependOnFuel := by
  intro n s t
  have hagrees : (hostRun n s).RunStateAgrees := runBy_runStateAgrees step n s
  have hadd : ∀ k, hostRun (n + k) s = (hostRun n s).goOn (hostRun k) := fun k => runBy_add step n k s
  refine ⟨fun h => ?_, fun f h => ?_, fun h => ?_⟩ <;> rw [h] at hagrees hadd <;> exact ⟨hagrees, hadd⟩

/-! ### A halted and a faulted core -/

/-- Settles O52: a halted core has not faulted, so it answers the host; its step and its run change nothing. -/
theorem haltedCoreOnlyAnswersTheHost : Obligations.HaltedCoreOnlyAnswersTheHost := by
  intro s n h
  have hf : ∀ f, s.run ≠ .faulted f := by rw [h]; exact fun f => nofun
  exact ⟨(step_eq_stepWith s).trans (stepWith_of_halted h), runBy_halted h, hostReset_of_not_faulted hf, rfl,
    hostRead_of_not_faulted hf⟩

/-- A faulted core refuses a transaction whatever its answer would be (R188, decision D12). -/
theorem State.unlessFaulted_of_faulted {s : State} {f : Fault} (h : s.run = .faulted f)
    (answer : Host.Outcome State Fault Refusal) : s.unlessFaulted answer = .refused .afterFault := by
  simp only [State.unlessFaulted, h]

/-- Settles O53: each transaction looks at the run state first, and `load_and_run` begins with `load`. -/
theorem faultedCoreRefusesEveryTransaction : Obligations.FaultedCoreRefusesEveryTransaction := by
  intro s f n image addr v h
  have hload : hostLoad image s = .refused .afterFault := State.unlessFaulted_of_faulted h _
  refine ⟨hload, State.unlessFaulted_of_faulted h _, State.unlessFaulted_of_faulted h _, ?_, ?_, runBy_faulted h,
    hostLoadAndRun_of_refused hload, (step_eq_stepWith s).trans (stepWith_of_faulted h)⟩
  · simp only [hostRead, h]
  · simp only [hostRegs, h]

end Sys2Proof.Machine
end

section
/-!
PROOFS. The bus (20_memory.md section 5): the accesses of a step in order, and that a step depends on and changes only
the bytes it accesses.
-/
namespace Sys2Proof.Machine

/-! ### The accesses of a handler -/

section
variable {c : Config} {i : Instr} {s : State}

/-- An LDA row's accesses: its data access is a read (R53). -/
theorem handlerAccesses_of_lda (h : i.mnemonic = .lda) :
    handlerAccesses c i s = resolvedAccesses c i.operand Access.read s := by
  simp only [handlerAccesses, h]

/-- A STA row's accesses: its data access is a write of A (R53). -/
theorem handlerAccesses_of_sta (h : i.mnemonic = .sta) :
    handlerAccesses c i s = resolvedAccesses c i.operand (fun ea => Access.write ea s.a) s := by
  simp only [handlerAccesses, h]

/-- TAX, INX and BRK make no access (R53). -/
theorem handlerAccesses_of_other (hlda : i.mnemonic ≠ .lda) (hsta : i.mnemonic ≠ .sta) :
    handlerAccesses c i s = [] := by
  unfold handlerAccesses
  split
  next h => exact absurd h hlda
  next h => exact absurd h hsta
  all_goals rfl

/-- A handler that raises has accessed nothing (R98, R162). -/
theorem handlerAccesses_of_fault {f : Fault} (h : execute c i s = .fault f) : handlerAccesses c i s = [] := by
  obtain ⟨hmode, hc, -⟩ := execute_fault_iff.mp h
  have hea := effectiveAddress_of_unsupported hmode hc s
  obtain hlda | hsta := lda_or_sta_of_mode_indirectY hmode
  · rw [handlerAccesses_of_lda hlda, resolvedAccesses_of_error hea]
  · rw [handlerAccesses_of_sta hsta, resolvedAccesses_of_error hea]

/-- Where the resolver answers, LDA and STA read the operand, then the pointer, then access the data (R54). -/
theorem handlerAccesses_of_ok {ea : Addr} (hmn : i.mnemonic = .lda ∨ i.mnemonic = .sta)
    (hea : effectiveAddress c i.operand s = .ok ea) :
    ∃ data, handlerAccesses c i s = operandReads i.operand s.pc ++ pointerReads i.operand s ++ [data] ∧
      (i.mnemonic = .lda → data = .read ea) ∧ (i.mnemonic = .sta → data = .write ea s.a) := by
  obtain hlda | hsta := hmn
  · refine ⟨.read ea, ?_, fun _ => rfl, fun hsta => (nomatch hlda.symm.trans hsta)⟩
    rw [handlerAccesses_of_lda hlda, resolvedAccesses_of_ok hea]
  · refine ⟨.write ea s.a, ?_, fun hlda => (nomatch hsta.symm.trans hlda), fun _ => rfl⟩
    rw [handlerAccesses_of_sta hsta, resolvedAccesses_of_ok hea]

end

/-- A running core's step that faults made the fetch only (R54, R162). -/
theorem stepAccesses_of_fault {c : Config} {s : State} {f : Fault} (hr : s.run = .running)
    (h : stepWith c s = .fault f) : stepAccesses c s = [.read s.pc] := by
  cases hd : decode s.fetchWindow with
  | error e => exact stepAccesses_of_undecoded hr hd
  | ok ir =>
    have hf : execute c ir.1 s.fetched = .fault f := (stepWith_fault_iff_of_decoded hr hd).mp h
    rw [stepAccesses_of_decoded hr hd, handlerAccesses_of_fault hf]

/-! ### The reads of the operand and of the pointer -/

/-- The resolver reads as many operand bytes as the mode has, but in mode Immediate none (R53, R90). -/
theorem operandReads_length (op : Operand) (pc : Addr) :
    (operandReads op pc).length = if op.mode = .immediate then 0 else op.mode.operandBytes := by
  cases op <;> rfl

/-- One operand byte is read at PC. -/
theorem operandReads_of_length_one {op : Operand} {pc : Addr} (h : (operandReads op pc).length = 1) :
    operandReads op pc = [.read pc] := by
  cases op with
  | immediate _ | noneAddressing | absolute _ | absoluteX _ | absoluteY _ => cases h
  | zeroPage _ | zeroPageX _ | zeroPageY _ | indirectX _ | indirectY _ => rfl

/-- Two operand bytes are read at PC and then at the next address. -/
theorem operandReads_of_length_two {op : Operand} {pc : Addr} (h : (operandReads op pc).length = 2) :
    operandReads op pc = [.read pc, .read (pc + 1)] := by
  cases op with
  | immediate _ | noneAddressing | zeroPage _ | zeroPageX _ | zeroPageY _ | indirectX _ | indirectY _ => cases h
  | absolute _ | absoluteX _ | absoluteY _ => rfl

/-- Only the indirect modes read a pointer, of two bytes (R53). -/
theorem pointerReads_length (op : Operand) (s : State) :
    (pointerReads op s).length = if op.mode = .indirectX ∨ op.mode = .indirectY then 2 else 0 := by
  cases op <;> rfl

/-- Indirect_X reads the pointer at the operand byte plus X (R97). -/
theorem pointerReads_of_indirectX {op : Operand} {s : State} (hm : op.mode = .indirectX)
    (h : s.mem.Holds s.pc op.bytes) : pointerReads op s = pointerPair (s.mem.read s.pc + s.x) := by
  cases op with
  | indirectX b1 => obtain ⟨rfl, -⟩ := h; rfl
  | _ => cases hm

/-- Indirect_Y reads the pointer at the operand byte (R98). -/
theorem pointerReads_of_indirectY {op : Operand} {s : State} (hm : op.mode = .indirectY)
    (h : s.mem.Holds s.pc op.bytes) : pointerReads op s = pointerPair (s.mem.read s.pc) := by
  cases op with
  | indirectY b1 => obtain ⟨rfl, -⟩ := h; rfl
  | _ => cases hm

/-- Settles O44: the fetched instruction is the row's and the two resolvers agree on it; where they answer, the handler's
accesses are those stated, and where they raise or there is no row, the step faults after the fetch. -/
theorem stepAccessesCountAndOrder : Obligations.StepAccessesCountAndOrder := by
  refine ⟨fun c s d hr hop => ?_, fun c s hr hop => stepAccesses_of_fault hr (stepWith_of_no_row hr hop),
    fun c s hr => stepAccesses_of_not_running hr⟩
  obtain ⟨i, rest, hd, rfl⟩ := decoded_of_row hop
  have hbytes := operand_holds_of_decoded hd
  have hresolve : effectiveAddress c i.operand s.fetched = Pseudocode.resolve c i.mode s.fetched :=
    effectiveAddress_of_decoded hd c
  have hsucc : s.pc + 1 + 1 = s.pc + 2 := BitVec.add_assoc s.pc 1 1
  have haccesses := stepAccesses_of_decoded (c := c) hr hd
  refine ⟨fun hmn ea hea => ?_, fun f hmn hf => ?_, fun hlda hsta => ?_⟩
  · obtain ⟨data, hhandler, hdata⟩ := handlerAccesses_of_ok hmn (hresolve.trans hea)
    refine ⟨_, _, data, haccesses.trans (congrArg _ hhandler), operandReads_length _ _, pointerReads_length _ _,
      operandReads_of_length_one, fun htwo => ?_, ?_, ?_, hdata⟩
    · rw [operandReads_of_length_two htwo, State.fetched_pc, hsucc]
    · rintro _ hmode rfl
      exact pointerReads_of_indirectX hmode hbytes
    · rintro _ hmode rfl
      exact pointerReads_of_indirectY hmode hbytes
  · obtain ⟨hmode, hc, rfl⟩ := effectiveAddress_error_of_lda_or_sta hmn (hresolve.trans hf)
    have hfault := stepWith_of_execute_fault hr hd (execute_fault_iff.mpr ⟨hmode, hc, rfl⟩)
    exact ⟨hmode, hc, stepAccesses_of_fault hr hfault⟩
  · rw [haccesses, handlerAccesses_of_other hlda hsta]

/-! ### Two memories that agree on the bytes read -/

/-- Two memories agree on every byte that a list of accesses reads. -/
def ReadsAgree (m m0 : Memory) (accesses : List Access) : Prop :=
  ∀ addr, Access.read addr ∈ accesses → m.read addr = m0.read addr

section
variable {m m0 : Memory}

theorem readsAgree_cons_read {addr : Addr} {accesses : List Access} :
    ReadsAgree m m0 (.read addr :: accesses) ↔ m.read addr = m0.read addr ∧ ReadsAgree m m0 accesses := by
  simp [ReadsAgree, or_imp, forall_and]

theorem readsAgree_append {front back : List Access} :
    ReadsAgree m m0 (front ++ back) ↔ ReadsAgree m m0 front ∧ ReadsAgree m m0 back := by
  simp [ReadsAgree, or_imp, forall_and]

/-- Where the memories agree on the operand reads, and in mode Immediate on the data byte at PC, the operand's bytes
stand in both (R63, R90). -/
theorem holds_of_readsAgree {op : Operand} {pc : Addr} (hbytes : m0.Holds pc op.bytes)
    (h : ReadsAgree m m0 (operandReads op pc)) (himm : op.mode = .immediate → m.read pc = m0.read pc) :
    m.Holds pc op.bytes := by
  cases op with
  | noneAddressing => trivial
  | immediate _ =>
    obtain ⟨rfl, -⟩ := hbytes
    exact ⟨himm rfl, trivial⟩
  | zeroPage _ | zeroPageX _ | zeroPageY _ | indirectX _ | indirectY _ =>
    obtain ⟨hb1, -⟩ := hbytes
    obtain ⟨hpc, -⟩ := readsAgree_cons_read.mp h
    exact ⟨hpc.trans hb1, trivial⟩
  | absolute _ | absoluteX _ | absoluteY _ =>
    obtain ⟨hlo, hhi, -⟩ := hbytes
    obtain ⟨hpc, h'⟩ := readsAgree_cons_read.mp h
    obtain ⟨hpc1, -⟩ := readsAgree_cons_read.mp h'
    exact ⟨hpc.trans hlo, hpc1.trans hhi, trivial⟩

/-- A zero-page word read from two memories that agree on its two bytes. -/
theorem readZeroPageWord_of_readsAgree {ptr : Byte} (h : ReadsAgree m m0 (pointerPair ptr)) :
    m.readZeroPageWord ptr = m0.readZeroPageWord ptr := by
  obtain ⟨hlo, h'⟩ := readsAgree_cons_read.mp h
  obtain ⟨hhi, -⟩ := readsAgree_cons_read.mp h'
  rw [Memory.readZeroPageWord, hlo, hhi, Memory.readZeroPageWord]

end

/-- The resolver reads no byte of memory but the pointer's (R53, R89). -/
theorem effectiveAddress_setMem (c : Config) {op : Operand} {s : State} {m : Memory}
    (h : ReadsAgree m s.mem (pointerReads op s)) :
    effectiveAddress c op (s.setMem m) = effectiveAddress c op s := by
  cases op with
  | indirectX b1 => exact congrArg Except.ok (readZeroPageWord_of_readsAgree h)
  | indirectY b1 =>
    have hword : m.readZeroPageWord b1 = s.mem.readZeroPageWord b1 := readZeroPageWord_of_readsAgree h
    simp only [effectiveAddress, State.setMem_mem, State.setMem_y, hword]
  | _ => rfl

/-- Which pointer bytes are read does not depend on memory. -/
theorem pointerReads_setMem (op : Operand) (s : State) (m : Memory) :
    pointerReads op (s.setMem m) = pointerReads op s := by
  cases op <;> rfl

/-- A load's byte is the operand's or the one at the effective address (R110). -/
theorem dataByte_setMem (op : Operand) {ea : Addr} {s : State} {m : Memory} (h : m.read ea = s.mem.read ea) :
    dataByte op ea (s.setMem m) = dataByte op ea s := by
  cases op with
  | immediate b1 => rfl
  | _ => exact h

/-- Where the resolver answers, it answers the same over a memory that agrees on the pointer, and the accesses are the
same. -/
theorem resolvedAccesses_setMem {c : Config} {op : Operand} {data : Addr → Access} {s : State} {ea : Addr} {m : Memory}
    (hea : effectiveAddress c op s = .ok ea) (h : ReadsAgree m s.mem (pointerReads op s)) :
    resolvedAccesses c op data (s.setMem m) = resolvedAccesses c op data s := by
  rw [resolvedAccesses_of_ok hea, resolvedAccesses_of_ok ((effectiveAddress_setMem c h).trans hea),
    pointerReads_setMem, State.setMem_pc]

/-- A handler that completes does the same over a memory that agrees on the bytes it reads: it finds its operand there,
makes the same accesses, and leaves the same state but for memory. -/
theorem execute_setMem {c : Config} {i : Instr} {s t : State} {m : Memory} (h : execute c i s = .next t)
    (hbytes : s.mem.Holds s.pc i.operand.bytes) (hagree : ReadsAgree m s.mem (handlerAccesses c i s)) :
    m.Holds s.pc i.operand.bytes ∧ handlerAccesses c i (s.setMem m) = handlerAccesses c i s ∧
      ∃ m', execute c i (s.setMem m) = .next (t.setMem m') := by
  obtain ⟨hi, ea, hea, rfl⟩ | ⟨hi, ea, hea, rfl⟩ | ⟨rfl, rfl⟩ | ⟨rfl, rfl⟩ | ⟨rfl, rfl⟩ := execute_next h
  · rw [handlerAccesses_of_lda hi, resolvedAccesses_of_ok hea, readsAgree_append, readsAgree_append,
      readsAgree_cons_read] at hagree
    obtain ⟨⟨hops, hptrs⟩, hdata, -⟩ := hagree
    have himm : i.operand.mode = .immediate → m.read s.pc = s.mem.read s.pc := by
      intro hmode
      rw [effectiveAddress_eq_resolve c _ hbytes, hmode] at hea
      cases hea
      exact hdata
    refine ⟨holds_of_readsAgree hbytes hops himm, ?_, m, ?_⟩
    · rw [handlerAccesses_of_lda hi, handlerAccesses_of_lda hi, resolvedAccesses_setMem hea hptrs]
    · rw [execute_of_lda hi, lda_of_ok ((effectiveAddress_setMem c hptrs).trans hea), dataByte_setMem _ hdata]
      rfl
  · rw [handlerAccesses_of_sta hi, resolvedAccesses_of_ok hea, readsAgree_append, readsAgree_append] at hagree
    obtain ⟨⟨hops, hptrs⟩, -⟩ := hagree
    have himm : i.operand.mode = .immediate → m.read s.pc = s.mem.read s.pc :=
      fun hmode => absurd hmode (Instr.mode_ne_immediate_of_sta hi)
    refine ⟨holds_of_readsAgree hbytes hops himm, ?_, m.write ea s.a, ?_⟩
    · rw [handlerAccesses_of_sta hi, handlerAccesses_of_sta hi, resolvedAccesses_setMem hea hptrs, State.setMem_a]
    · rw [execute_of_sta hi, sta_of_ok ((effectiveAddress_setMem c hptrs).trans hea)]
      rfl
  all_goals exact ⟨trivial, rfl, m, rfl⟩

/-- A running core's step that completes does the same over a memory that agrees on the bytes it reads. -/
theorem stepWith_setMem_of_next {c : Config} {s t : State} {m : Memory} (hr : s.run = .running)
    (h : stepWith c s = .next t) (hagree : ReadsAgree m s.mem (stepAccesses c s)) :
    stepAccesses c (s.setMem m) = stepAccesses c s ∧ ∃ m', stepWith c (s.setMem m) = .next (t.setMem m') := by
  obtain ⟨i, rest, u, hd, hu, rfl⟩ := stepWith_next_of_running hr h
  rw [stepAccesses_of_decoded hr hd, readsAgree_cons_read] at hagree
  obtain ⟨hopcode, hhandler⟩ := hagree
  obtain ⟨hop, hbytes⟩ := holds_of_fetchWindow (eq_encode_append_of_decode hd)
  obtain ⟨hoperand, haccesses, m', hexec⟩ := execute_setMem (s := s.fetched) hu hbytes hhandler
  obtain ⟨rest', hd'⟩ := decode_fetchWindow_of_holds (s := s.setMem m) (i := i) ⟨hopcode.trans hop, hoperand⟩
  refine ⟨?_, m', stepWith_of_execute (s := s.setMem m) hr hd' hexec⟩
  rw [stepAccesses_of_decoded hr hd, ← haccesses]
  exact stepAccesses_of_decoded hr hd'

/-- A running core's step that faults does so by the byte at PC alone, and accesses nothing else (R164). -/
theorem stepWith_setMem_of_fault {c : Config} {s : State} {m : Memory} {f : Fault} (hr : s.run = .running)
    (h : stepWith c s = .fault f) (hagree : ReadsAgree m s.mem (stepAccesses c s)) :
    stepAccesses c (s.setMem m) = stepAccesses c s ∧ stepWith c (s.setMem m) = .fault f := by
  have haccesses := stepAccesses_of_fault hr h
  rw [haccesses, readsAgree_cons_read] at hagree
  obtain ⟨hopcode, -⟩ := hagree
  have hcond := (noOtherConditionFaults c s f hr).mp h
  rw [← hopcode] at hcond
  have h' : stepWith c (s.setMem m) = .fault f := (noOtherConditionFaults c (s.setMem m) f hr).mpr hcond
  exact ⟨(stepAccesses_of_fault (s := s.setMem m) hr h').trans haccesses.symm, h'⟩

/-! ### The byte a step writes -/

/-- The resolver's operand reads hold no write. -/
theorem write_not_mem_operandReads (op : Operand) (pc addr : Addr) (v : Byte) :
    Access.write addr v ∉ operandReads op pc := by
  cases op <;> simp [operandReads]

/-- The resolver's pointer reads hold no write. -/
theorem write_not_mem_pointerReads (op : Operand) (s : State) (addr : Addr) (v : Byte) :
    Access.write addr v ∉ pointerReads op s := by
  cases op <;> simp [pointerReads, pointerPair]

/-- The only write of LDA or STA is the data access, where that is one (R54). -/
theorem write_mem_resolvedAccesses {c : Config} {op : Operand} {data : Addr → Access} {s : State} {ea addr : Addr}
    {v : Byte} (hea : effectiveAddress c op s = .ok ea) :
    .write addr v ∈ resolvedAccesses c op data s ↔ .write addr v = data ea := by
  rw [resolvedAccesses_of_ok hea, List.mem_append, List.mem_append, List.mem_singleton]
  simp only [write_not_mem_operandReads, write_not_mem_pointerReads, false_or]

/-- A memory is what another becomes by the writes of an access list that has at most one: it is the same and the list
has no write, or one byte is written and that is the list's only write. -/
def WrittenBy (accesses : List Access) (m0 m : Memory) : Prop :=
  (m = m0 ∧ ∀ addr v, Access.write addr v ∉ accesses) ∨
    ∃ ea b, m = m0.write ea b ∧ ∀ addr v, Access.write addr v ∈ accesses ↔ addr = ea ∧ v = b

/-- A read before the accesses writes nothing. -/
theorem WrittenBy.cons_read {accesses : List Access} {m0 m : Memory} (h : WrittenBy accesses m0 m) (addr : Addr) :
    WrittenBy (.read addr :: accesses) m0 m := by
  obtain ⟨hm, hno⟩ | ⟨ea, b, hm, hiff⟩ := h
  · exact .inl ⟨hm, by simpa using hno⟩
  · exact .inr ⟨ea, b, hm, by simpa using hiff⟩

/-- A completed handler changes memory by the writes of its accesses (R53). -/
theorem execute_writtenBy {c : Config} {i : Instr} {s t : State} (h : execute c i s = .next t) :
    WrittenBy (handlerAccesses c i s) s.mem t.mem := by
  obtain ⟨hi, ea, hea, rfl⟩ | ⟨hi, ea, hea, rfl⟩ | ⟨rfl, rfl⟩ | ⟨rfl, rfl⟩ | ⟨rfl, rfl⟩ := execute_next h
  · refine .inl ⟨rfl, fun addr v => ?_⟩
    rw [handlerAccesses_of_lda hi, write_mem_resolvedAccesses hea]
    exact nofun
  · refine .inr ⟨ea, s.a, rfl, fun addr v => ?_⟩
    rw [handlerAccesses_of_sta hi, write_mem_resolvedAccesses hea, Access.write.injEq]
  all_goals exact .inl ⟨rfl, fun addr v => List.not_mem_nil⟩

/-- A completed step changes memory by the writes of its accesses (R54). -/
theorem stepWith_writtenBy {c : Config} {s t : State} (h : stepWith c s = .next t) :
    WrittenBy (stepAccesses c s) s.mem t.mem := by
  obtain ⟨hr, rfl⟩ | ⟨hr, i, rest, u, hd, hu, rfl⟩ := stepWith_next h
  · rw [stepAccesses_of_not_running (by rw [hr]; exact nofun)]
    exact .inl ⟨rfl, fun addr v => List.not_mem_nil⟩
  · rw [stepAccesses_of_decoded hr hd]
    exact (execute_writtenBy hu).cons_read s.pc

/-- The byte written reads as written, every other byte as before (R43). -/
theorem WrittenBy.reads {accesses : List Access} {m0 m : Memory} (h : WrittenBy accesses m0 m) :
    (∀ addr v, Access.write addr v ∈ accesses → m.read addr = v) ∧
      ∀ addr, (∀ v, Access.write addr v ∉ accesses) → m.read addr = m0.read addr := by
  obtain ⟨rfl, hno⟩ | ⟨ea, b, rfl, hiff⟩ := h
  · exact ⟨fun addr v hw => absurd hw (hno addr v), fun _ _ => rfl⟩
  · refine ⟨fun addr v hw => ?_, fun addr hno => ?_⟩
    · obtain ⟨rfl, rfl⟩ := (hiff addr v).mp hw
      rw [Memory.read_write, if_pos rfl]
    · rw [Memory.read_write, if_neg fun heq => hno b ((hiff addr b).mpr ⟨heq, rfl⟩)]

/-- A step over a memory that agrees on the bytes it reads: the same accesses, and the same fault or the same next state
but for memory. -/
theorem stepWith_setMem {c : Config} {s : State} {m : Memory} (hagree : ReadsAgree m s.mem (stepAccesses c s)) :
    stepAccesses c (s.setMem m) = stepAccesses c s ∧
      (∀ f, stepWith c s = .fault f → stepWith c (s.setMem m) = .fault f) ∧
      ∀ t, stepWith c s = .next t → ∃ m', stepWith c (s.setMem m) = .next (t.setMem m') := by
  have hstopped (hr : s.run ≠ .running) : stepAccesses c (s.setMem m) = stepAccesses c s := by
    rw [stepAccesses_of_not_running hr]
    exact stepAccesses_of_not_running (s := s.setMem m) hr
  cases hr : s.run with
  | halted =>
    rw [stepWith_of_halted hr, stepWith_of_halted (s := s.setMem m) hr]
    exact ⟨hstopped (by rw [hr]; exact nofun), nofun, fun _ ht => Host.Outcome.next.inj ht ▸ ⟨m, rfl⟩⟩
  | faulted e =>
    rw [stepWith_of_faulted hr, stepWith_of_faulted (s := s.setMem m) hr]
    exact ⟨hstopped (by rw [hr]; exact nofun), fun _ hf => hf, nofun⟩
  | running =>
    cases h : stepWith c s with
    | next t =>
      obtain ⟨haccesses, hnext⟩ := stepWith_setMem_of_next hr h hagree
      exact ⟨haccesses, nofun, fun _ ht => Host.Outcome.next.inj ht ▸ hnext⟩
    | fault f =>
      obtain ⟨haccesses, hfault⟩ := stepWith_setMem_of_fault hr h hagree
      exact ⟨haccesses, fun _ hf => hf ▸ hfault, nofun⟩
    | refused r => exact absurd h (stepWith_ne_refused c s r)

/-- Settles O43: the step over the other memory, and the writes of the step itself. -/
theorem stepTouchesOnlyItsAccesses : Obligations.StepTouchesOnlyItsAccesses := by
  intro c s m hagree
  obtain ⟨haccesses, hfault, hnext⟩ := stepWith_setMem hagree
  refine ⟨haccesses, hfault, fun t h => ⟨?_, (stepWith_writtenBy h).reads⟩⟩
  obtain ⟨m', h'⟩ := hnext t h
  exact ⟨t.setMem m', h', rfl⟩

end Sys2Proof.Machine
end
